-- ==== Sys2Proof/Word.lean ====
section
/-! DEFINITION. The bit-vector types of the CKF block, one per width the spec states (00_scope.md rule R2,
10_state.md section 1). Only what the spec adds, masks, concatenates or shows on a port is a bit vector. -/

namespace Sys2Proof

/-- A byte of the transmit stream, of a descriptor name or of `ck_byte` (8 bits; TX_W = 8). -/
abbrev Byte := BitVec 8

/-- The accumulator ACC, ACC_W = 16 bits (10_state.md rule R16). -/
abbrev AccWord := BitVec 16

/-- A stored counter, CNT_W = 32 bits unsigned (10_state.md rule R12). -/
abbrev CntWord := BitVec 32

/-- The phase code PH, PH_W = 4 bits (10_state.md rule R14). -/
abbrev PhCode := BitVec 4

/-- The group index GI, GI_W = 3 bits (10_state.md rule R14). -/
abbrev GrpIdx := BitVec 3

/-- The byte index BI, BI_W = 4 bits (10_state.md rule R14). -/
abbrev ByteIdx := BitVec 4

/-- The sticky flags OVF[4:0] (10_state.md rule R18). -/
abbrev OvfFlags := BitVec 5

/-- The STATUS word (10_state.md rule R19). -/
abbrev StatusWord := BitVec 16

/-- The output `ck_chk[6:0]` of the checksum engine (40_checksum.md rule R71). -/
abbrev ChkChar := BitVec 7

/-- `zext_16` of a byte (00_scope.md section 7). -/
abbrev zext16 (b : Byte) : AccWord := b.setWidth 16

end Sys2Proof
end

