-- ==== Sys2Proof/Config.lean ====
section
/-! DEFINITION. The implementation parameters of 00_scope.md rule R2, the constant descriptor table DESC
(10_state.md rule R20), the open parameter TICKQ_MAX and the free values. What has no body here is open in the
spec: no proof can see its value, so a claim about it holds for every value. -/

namespace Sys2Proof

/-- NGRP = 5: counters, descriptors and Data Groups per Frame (00_scope.md rule R2; 90_conflicts.md C1). -/
abbrev NGRP : Nat := 5

/-- A group number 0..4: 0 BASE, 1 HCHC, 2 HCHP, 3 IINST, 4 PAPP (10_state.md rule R10). -/
abbrev Grp := Fin NGRP

/-- One entry of DESC (10_state.md rule R20). -/
structure Descriptor where
  name  : List Byte
  width : Nat
  deriving DecidableEq, Repr

/-- `nlen = len(name)` (10_state.md rule R20). -/
def Descriptor.nlen (d : Descriptor) : Nat := d.name.length

/-- The five counters CNT[0..4] by name (10_state.md rule R10). -/
structure Counters where
  base  : CntWord
  hchc  : CntWord
  hchp  : CntWord
  iinst : CntWord
  papp  : CntWord
  deriving DecidableEq, Repr

/-- `CNT[i]` (00_scope.md section 7). -/
def Counters.get (c : Counters) : Grp → CntWord
  | 0 => c.base
  | 1 => c.hchc
  | 2 => c.hchp
  | 3 => c.iinst
  | 4 => c.papp

/-- Five counter values given by index, all at once. -/
def Counters.ofFn (f : Grp → CntWord) : Counters :=
  { base := f 0, hchc := f 1, hchp := f 2, iinst := f 3, papp := f 4 }

namespace Config

/-- DESC[0..4], the names in ASCII (10_state.md rule R20, 30_encoding.md rule R50; log entry 15). -/
def desc : Grp → Descriptor
  | 0 => { name := [0x42, 0x41, 0x53, 0x45], width := 9 }
  | 1 => { name := [0x48, 0x43, 0x48, 0x43], width := 9 }
  | 2 => { name := [0x48, 0x43, 0x48, 0x50], width := 9 }
  | 3 => { name := [0x49, 0x49, 0x4E, 0x53, 0x54], width := 3 }
  | 4 => { name := [0x50, 0x41, 0x50, 0x50], width := 5 }

/-- INIT[0..4], the counter values after RESET (10_state.md rule R23). -/
def init : Counters := { base := 0, hchc := 1111, hchp := 2222, iinst := 120, papp := 16254 }

/-- NAME_MAX and WIDTH_MAX, the bounds a descriptor table respects (41_group_encoder.md rule R92). -/
def nameMax : Nat := 8
def widthMax : Nat := 9

/-- MASK and OFFSET of the checksum (40_checksum.md rule R71). -/
def mask : AccWord := 0x3F
def offset : AccWord := 0x20

/-- The framing and separator bytes (30_encoding.md rule R49). -/
def stxByte : Byte := 0x02
def etxByte : Byte := 0x03
def lfByte : Byte := 0x0A
def crByte : Byte := 0x0D
def spByte : Byte := 0x20

/-- The code of the digit zero (30_encoding.md rule R49). -/
def zeroByte : Nat := 0x30

/-- How far TICKQ_MAX lies above its least allowed value 1: open (92_eei_decisions.md D8; log entry 1). -/
opaque tickqExtra : Nat

/-- TICKQ_MAX, the largest number of pending ticks remembered: any integer of at least 1
(00_scope.md rule R2, 92_eei_decisions.md D8; log entry 1). -/
def tickqMax : Nat := tickqExtra + 1

/-- FREE VALUE: `tx_data` at the k-th clock edge while `tx_valid` = 0: any value, a fresh draw at every edge
(93_implementation_defined.md U3; log entry 2). -/
opaque freeTxData : Nat → Byte

/-- FREE VALUE: `DESC[gi].name[bi]` for indices the table does not have: the read 'has no defined result'
(20_memory.md rule R31; log entry 3). -/
opaque unstatedNameByte : GrpIdx → ByteIdx → Byte

/-- FREE VALUE: `DESC[gi].nlen` for gi in 5..7 (20_memory.md rule R31; log entry 3). -/
opaque unstatedNlen : GrpIdx → Nat

/-- FREE VALUE: `DESC[gi].width` for gi in 5..7 (20_memory.md rule R31; log entry 3). -/
opaque unstatedWidth : GrpIdx → Nat

/-- FREE VALUE: `CNT[gi]` for gi in 5..7 (20_memory.md rules R31 and R32; log entry 3). -/
opaque unstatedCounter : GrpIdx → CntWord

/-- FREE VALUE: digit number bi of a field of fewer than bi + 1 digits (30_encoding.md rule R48 gives digits
0 to w - 1 only; log entry 3). -/
opaque unstatedDigit : GrpIdx → ByteIdx → Byte

end Config
end Sys2Proof
end

