-- ==== Sys2Proof/Syntax.lean ====
section
/-! DEFINITION. The operations of the CKF block, one constructor per row of spec/opcode_table.json, and the three
formats their codes are written in (30_encoding.md rules R51, R53, R54 and R55). -/

namespace Sys2Proof

/-- The operations. Their operands are GI, BI and the tables these index, which are state and configuration
(30_encoding.md rule R51); only CK.ADD is handed an operand from outside, `ck_byte` (rule R53). -/
inductive Instr where
  /-- CK.HOLD (40_checksum.md rule R67) -/
  | ckHold
  /-- CK.CLR (40_checksum.md rule R68) -/
  | ckClr
  /-- CK.ADD with `ck_byte` (40_checksum.md rule R69) -/
  | ckAdd (ckByte : Byte)
  /-- CK.RSV (40_checksum.md rule R70) -/
  | ckRsv
  /-- IDLE (42_framer.md rule R102) -/
  | idle
  /-- STX (42_framer.md rule R103) -/
  | stx
  /-- LF (41_group_encoder.md rule R81) -/
  | lf
  /-- NAME (41_group_encoder.md rule R82) -/
  | name
  /-- SP1 (41_group_encoder.md rule R83) -/
  | sp1
  /-- DIG (41_group_encoder.md rule R84) -/
  | dig
  /-- SP2 (41_group_encoder.md rule R85) -/
  | sp2
  /-- CHK (41_group_encoder.md rule R86) -/
  | chk
  /-- CR (41_group_encoder.md rule R87) -/
  | cr
  /-- ETX (42_framer.md rule R104) -/
  | etx
  /-- ADV (42_framer.md rule R105) -/
  | adv
  /-- PH.RSV11, the reserved phase code 1011 (30_encoding.md rule R54) -/
  | phRsv11
  /-- PH.RSV12_15, the reserved phase codes 11rr, with the whole code (30_encoding.md rule R54) -/
  | phRsv12to15 (code : PhCode)
  /-- RESET (70_reset_and_hazards.md rule R140) -/
  | reset
  /-- TICK (42_framer.md rule R101) -/
  | tick
  /-- ACCEPT (20_memory.md rule R33) -/
  | accept
  deriving DecidableEq, Repr

/-- Which of the block's three code spaces a code belongs to: the "format" column of the operation table. -/
inductive Format where
  /-- CK2: `ck_op[1:0]`, beside it `ck_byte[7:0]` (30_encoding.md rule R53) -/
  | ck2
  /-- PH4: the phase PH (30_encoding.md rule R51) -/
  | ph4
  /-- PIN: the vector (rst, tick, tx_valid, tx_ready) at a clock edge, rst in bit 3 (30_encoding.md rule R55) -/
  | pin
  deriving DecidableEq, Repr

/-- The format an operation's row names. -/
def Instr.format : Instr → Format
  | .ckHold | .ckClr | .ckAdd _ | .ckRsv => .ck2
  | .idle | .stx | .lf | .name | .sp1 | .dig | .sp2 | .chk | .cr | .etx | .adv => .ph4
  | .phRsv11 | .phRsv12to15 _ => .ph4
  | .reset | .tick | .accept => .pin

end Sys2Proof
end

