-- ==== Sys2Proof/WellFormed.lean ====
section
/-! DEFINITION. Which operation terms and which descriptors are well formed. -/

namespace Sys2Proof

/-- An operation is well formed when the code it carries is one of its row's: PH.RSV12_15 stands for the codes
11rr, that is 12 to 15 (30_encoding.md rule R54). Every other operation's operands fit by their types. -/
def Instr.wf : Instr → Bool
  | .ckHold | .ckClr | .ckAdd _ | .ckRsv => true
  | .idle | .stx | .lf | .name | .sp1 | .dig | .sp2 | .chk | .cr | .etx | .adv => true
  | .phRsv11 => true
  | .phRsv12to15 code => 12 ≤ code.toNat
  | .reset | .tick | .accept => true

/-- A descriptor's name has 1 to NAME_MAX bytes, each in 0x21..0x7E, and its width is 1 to WIDTH_MAX
(41_group_encoder.md rule R92). -/
def Descriptor.wf (d : Descriptor) : Bool :=
  (1 ≤ d.name.length) && (d.name.length ≤ Config.nameMax)
    && d.name.all (fun b => (0x21 ≤ b.toNat) && (b.toNat ≤ 0x7E))
    && (1 ≤ d.width) && (d.width ≤ Config.widthMax)

end Sys2Proof
end

