-- ==== Sys2Proof/Decode.lean ====
section
/-! DEFINITION. Decoding and encoding of the three code formats (30_encoding.md rules R51, R53, R54 and R55). The
block stores no program: the only stored code is PH, and the other two formats are signals. A code is written here
as bytes, the code right-justified in one byte, CK.ADD's `ck_byte` in the byte after it (log entry 4). -/

namespace Sys2Proof

/-- Why bytes are no operation of a format. -/
inductive DecodeError where
  /-- there is no byte to read -/
  | noBytes
  /-- CK.ADD without its `ck_byte` -/
  | noCkByte
  /-- the byte has bits above the code's width -/
  | codeTooWide (b : Byte)
  /-- a pin vector at which none of the three events happens -/
  | noEvent (pins : BitVec 4)
  /-- a pin vector at which two events happen (30_encoding.md rule R55: several events may fall on one edge) -/
  | severalEvents (pins : BitVec 4)
  deriving DecidableEq, Repr

/-- What decoding answers: an operation and the bytes after it, or a rejection by name. -/
inductive Decoded where
  | ok (i : Instr) (rest : List Byte)
  | reject (e : DecodeError)
  deriving DecidableEq, Repr

/-- The operation the phase PH selects (30_encoding.md rule R51; reserved codes rule R54). -/
def decodePhase (code : PhCode) : Instr :=
  match code.toNat with
  | 0 => .idle
  | 1 => .stx
  | 2 => .lf
  | 3 => .name
  | 4 => .sp1
  | 5 => .dig
  | 6 => .sp2
  | 7 => .chk
  | 8 => .cr
  | 9 => .etx
  | 10 => .adv
  | 11 => .phRsv11
  | _ => .phRsv12to15 code

/-- The engine operation of `ck_op`, given `ck_byte` (30_encoding.md rule R53). Only CK.ADD looks at `ck_byte`. -/
def decodeCkOp (op : BitVec 2) (ckByte : Byte) : Instr :=
  match op.toNat with
  | 0 => .ckHold
  | 1 => .ckClr
  | 2 => .ckAdd ckByte
  | _ => .ckRsv

/-- The events at a clock edge, in the order in which they take effect: RESET excludes the others, and the
sequencer's step (ACCEPT) comes before TICK (30_encoding.md rule R55, 60_exceptions.md rule R126). -/
def pinEvents (pins : BitVec 4) : List Instr :=
  if pins.getLsbD 3 then [.reset]
  else (if pins.getLsbD 1 && pins.getLsbD 0 then [.accept] else [])
    ++ (if pins.getLsbD 2 then [.tick] else [])

/-- One CK2 operation. -/
def decodeCk2 (b : Byte) (rest : List Byte) : Decoded :=
  if 4 ≤ b.toNat then .reject (.codeTooWide b)
  else if b.toNat = 2 then
    match rest with
    | [] => .reject .noCkByte
    | ckByte :: rest' => .ok (.ckAdd ckByte) rest'
  else .ok (decodeCkOp (b.setWidth 2) 0) rest

/-- One PH4 operation. -/
def decodePh4 (b : Byte) (rest : List Byte) : Decoded :=
  if 16 ≤ b.toNat then .reject (.codeTooWide b) else .ok (decodePhase (b.setWidth 4)) rest

/-- One PIN vector, where exactly one event happens at it. Where two do, `pinEvents` answers both, in their
order (log entry 14). -/
def decodePin (b : Byte) (rest : List Byte) : Decoded :=
  if 16 ≤ b.toNat then .reject (.codeTooWide b)
  else
    match pinEvents (b.setWidth 4) with
    | [] => .reject (.noEvent (b.setWidth 4))
    | [i] => .ok i rest
    | _ => .reject (.severalEvents (b.setWidth 4))

/-- Decoding is total on any bytes of any format. -/
def decode (f : Format) (bytes : List Byte) : Decoded :=
  match bytes with
  | [] => .reject .noBytes
  | b :: rest =>
    match f with
    | .ck2 => decodeCk2 b rest
    | .ph4 => decodePh4 b rest
    | .pin => decodePin b rest

/-- The bytes of an operation in its own format (`Instr.format`), from the code columns of 30_encoding.md rules
R51, R53, R54 and R55. A PIN event is written with every 'either value' bit 0
(log entry 14). -/
def encode : Instr → List Byte
  | .ckHold => [0b00]
  | .ckClr => [0b01]
  | .ckAdd ckByte => [0b10, ckByte]
  | .ckRsv => [0b11]
  | .idle => [0b0000]
  | .stx => [0b0001]
  | .lf => [0b0010]
  | .name => [0b0011]
  | .sp1 => [0b0100]
  | .dig => [0b0101]
  | .sp2 => [0b0110]
  | .chk => [0b0111]
  | .cr => [0b1000]
  | .etx => [0b1001]
  | .adv => [0b1010]
  | .phRsv11 => [0b1011]
  | .phRsv12to15 code => [code.setWidth 8]
  | .reset => [0b1000]
  | .tick => [0b0100]
  | .accept => [0b0011]

/-- The bytes a table word of `nbits` bits stands for: its two low bytes, the first word's low byte first. -/
def tableBytes (w : Nat) : List Byte := [BitVec.ofNat 8 w, BitVec.ofNat 8 (w / 256)]

/-- The format a table word of `nbits` bits is read in. The table's words do not say their format: words narrower
than four bits can only be CK2 codes, and every other word is read as a phase code, the one code the block stores
(log entry 4). -/
def tableFormat (nbits : Nat) : Format := if nbits < 4 then .ck2 else .ph4

/-- The operation the decoder reads from a table word (log entry 4). -/
def decodeTableWord (nbits w : Nat) : Option Instr :=
  match decode (tableFormat nbits) (tableBytes w) with
  | .ok i _ => some i
  | .reject _ => none

end Sys2Proof
end

