-- ==== Sys2Proof/Machine/State.lean ====
section
/-! DEFINITION. The state of the CKF block (10_state.md), what its environment does at the coming clock edges, and
the state right after reset. -/

namespace Sys2Proof.Machine

/-- What the environment does at one rising edge of `clk`: the levels of the input pins (00_scope.md rule R3) and
whether the transport delivers a byte it accepts at this edge to the wire (60_exceptions.md rule R123). -/
structure EdgeInput where
  /-- pin `rst` -/
  rst : Bool
  /-- pin `tick` -/
  tick : Bool
  /-- pin `tx_ready` -/
  txReady : Bool
  /-- the transport's free choice: a byte accepted at this edge reaches the wire (log entry 11) -/
  delivers : Bool
  deriving DecidableEq, Repr

/-- An edge at which nothing is asked of the block: no RESET, no TICK, no ACCEPT. Read where State lists no
further edge (log entry 5). -/
def EdgeInput.quiet : EdgeInput := { rst := false, tick := false, txReady := false, delivers := false }

/-- The block's state, the model's histories TX and wire, and the environment's coming edges. -/
structure State where
  /-- CNT[0..4] (10_state.md rules R10 and R12) -/
  cnt : Counters
  /-- ACC (10_state.md rule R16) -/
  acc : AccWord
  /-- PH (10_state.md rule R14) -/
  ph : PhCode
  /-- GI (10_state.md rule R14) -/
  gi : GrpIdx
  /-- BI (10_state.md rule R14) -/
  bi : ByteIdx
  /-- TICKQ (10_state.md rule R17) -/
  tickq : Nat
  /-- OVF[4:0] (10_state.md rule R18) -/
  ovf : OvfFlags
  /-- TLOST (10_state.md rule R18) -/
  tlost : Bool
  /-- TX, the bytes accepted since the model began, oldest first (10_state.md rule R21) -/
  tx : List Byte
  /-- the bytes that left the transport, oldest first: not visible to the block (60_exceptions.md rule R123) -/
  wire : List Byte
  /-- what the environment does at the coming clock edges, the next one first (log entry 5) -/
  inputs : List EdgeInput
  /-- the MODEL's own counter of clock edges, the index of the free draws of `tx_data` (log entry 2) -/
  edge : Nat
  deriving DecidableEq, Repr

/-- Why the block stops. -/
inductive Fault where
  /-- A sequencer step at a reserved phase code 11..15: raised by PH.RSV11 and PH.RSV12_15 alone. The sequencer
  stops for good and offers no byte (30_encoding.md rule R54, 93_implementation_defined.md U1; log entry 10). SAFE: the spec
  gives the code no behaviour, and no reachable state holds one. -/
  | reservedPhase (code : PhCode)
  deriving DecidableEq, Repr

/-- Why the model has no meaning for an operation. -/
inductive Refusal where
  /-- Raised by `exec` for an operation whose meaning is not written yet; no arm does. SAFE: nothing is claimed of
  such an operation. -/
  | notModelled (mnemonic : String)
  deriving DecidableEq, Repr

namespace State

/-- The machine right after RESET (10_state.md rule R23), with nothing yet transmitted (rule R21) and an environment
that has not acted yet (log entries 5 and 6). -/
def reset : State :=
  { cnt := Config.init
    acc := 0
    ph := 0
    gi := 0
    bi := 0
    tickq := 0
    ovf := 0
    tlost := false
    tx := []
    wire := []
    inputs := []
    edge := 0 }

/-- What the environment does at the next clock edge (log entry 5). -/
def input (s : State) : EdgeInput := s.inputs.headD EdgeInput.quiet

end State
end Sys2Proof.Machine
end

