-- ==== Sys2Proof/Machine/Operands.lean ====
section
/-! DEFINITION. Operand assembly: reads of DESC and CNT, decimal digits, the checksum functions, the formats of a
Data Group and a Frame as pure functions, and the byte each phase offers. -/

namespace Sys2Proof.Machine

/-! ### Phase codes (30_encoding.md rule R51) -/

def phIdle : PhCode := 0
def phStx : PhCode := 1
def phLf : PhCode := 2
def phName : PhCode := 3
def phSp1 : PhCode := 4
def phDig : PhCode := 5
def phSp2 : PhCode := 6
def phChk : PhCode := 7
def phCr : PhCode := 8
def phEtx : PhCode := 9
def phAdv : PhCode := 10

/-- The nine emitting phases STX..ETX (00_scope.md section 8, 20_memory.md rule R33). -/
def isEmitting (ph : PhCode) : Bool := (1 ≤ ph.toNat) && (ph.toNat ≤ 9)

/-! ### Table and counter reads (20_memory.md rules R31 and R32) -/

/-- The group GI names, when the tables have it. -/
def grp? (gi : GrpIdx) : Option Grp := if h : gi.toNat < NGRP then some ⟨gi.toNat, h⟩ else none

/-- `DESC[GI].nlen`; free where the table has no entry (log entry 3). -/
def nlenOf (gi : GrpIdx) : Nat :=
  match grp? gi with
  | some g => (Config.desc g).nlen
  | none => Config.unstatedNlen gi

/-- `DESC[GI].width`; free where the table has no entry (log entry 3). -/
def widthOf (gi : GrpIdx) : Nat :=
  match grp? gi with
  | some g => (Config.desc g).width
  | none => Config.unstatedWidth gi

/-- `CNT[GI]`; free where there is no such counter (log entry 3). -/
def counterOf (c : Counters) (gi : GrpIdx) : CntWord :=
  match grp? gi with
  | some g => c.get g
  | none => Config.unstatedCounter gi

/-- `DESC[GI].name[BI]`, the byte NAME offers; free where the table has no such byte (log entry 3). -/
def nameByte (gi : GrpIdx) (bi : ByteIdx) : Byte :=
  match (grp? gi).bind (fun g => (Config.desc g).name[bi.toNat]?) with
  | some b => b
  | none => Config.unstatedNameByte gi bi

/-! ### Decimal digits (30_encoding.md rule R48) -/

/-- The code of digit k of v in a field of w digits, k = 0 the most significant:
`0x30 + ((v div 10^(w-1-k)) mod 10)`. -/
def digitByte (v w k : Nat) : Byte := BitVec.ofNat 8 (Config.zeroByte + (v / 10 ^ (w - 1 - k)) % 10)

/-- The byte DIG offers (41_group_encoder.md rule R84); free where the field has no digit BI (log entry 3). For a
counter at or above 10^w the pseudocode's formula stands (log entry 7). -/
def digByte (c : Counters) (gi : GrpIdx) (bi : ByteIdx) : Byte :=
  if bi.toNat < widthOf gi then digitByte (counterOf c gi).toNat (widthOf gi) bi.toNat
  else Config.unstatedDigit gi bi

/-- The digit bytes of a field of w digits, most significant first. -/
def digits (v w : Nat) : List Byte := (List.range w).map (digitByte v w)

/-- `dec(v, w)`: no result for v ≥ 10^w, nor for a width outside 1..9 (30_encoding.md rule R48,
41_group_encoder.md rule R90). -/
def dec (v w : Nat) : Option (List Byte) :=
  if 1 ≤ w ∧ w ≤ Config.widthMax ∧ v < 10 ^ w then some (digits v w) else none

/-! ### The checksum functions (40_checksum.md rules R66 and R71) -/

/-- `sum(s)`, a non-negative integer. -/
def byteSum : List Byte → Nat
  | [] => 0
  | b :: bs => b.toNat + byteSum bs

/-- `cksum(s) = (sum(s) & 0x3F) + 0x20`. -/
def cksum (s : List Byte) : ChkChar := BitVec.ofNat 7 ((byteSum s &&& 0x3F) + 0x20)

/-- `chk(a) = (a & 0x3F) + 0x20`, the engine's output `ck_chk`: masked first, offset second. -/
def chkOf (a : AccWord) : ChkChar := ((a &&& Config.mask) + Config.offset).setWidth 7

/-! ### Data Group and Frame (41_group_encoder.md rule R80, 42_framer.md rule R100) -/

/-- `csub(name, v, w) = name ++ [0x20] ++ dec(v, w)`, the checksummable substring. -/
def csub (name : List Byte) (v w : Nat) : Option (List Byte) :=
  if name = [] then none else (dec v w).map (fun ds => name ++ [Config.spByte] ++ ds)

/-- `group(name, v, w)`, one Data Group: no result where the name is empty or `dec(v, w)` has none
(41_group_encoder.md rules R80 and R90). -/
def group (name : List Byte) (v w : Nat) : Option (List Byte) :=
  (csub name v w).map
    (fun cs => [Config.lfByte] ++ cs ++ [Config.spByte, (cksum cs).setWidth 8, Config.crByte])

/-- `group(DESC[g].name, c[g], DESC[g].width)`. -/
def groupOf (c : Counters) (g : Grp) : Option (List Byte) :=
  group (Config.desc g).name (c.get g).toNat (Config.desc g).width

/-- `frame(c)`: STX, the five Data Groups in index order, ETX (42_framer.md rule R100, 30_encoding.md rule R47). -/
def frame (c : Counters) : Option (List Byte) :=
  match groupOf c 0, groupOf c 1, groupOf c 2, groupOf c 3, groupOf c 4 with
  | some g0, some g1, some g2, some g3, some g4 =>
    some ([Config.stxByte] ++ g0 ++ g1 ++ g2 ++ g3 ++ g4 ++ [Config.etxByte])
  | _, _, _, _, _ => none

/-! ### The byte on offer (20_memory.md rule R33) -/

/-- The byte CHK offers, `zext_8(chk(ACC))` (41_group_encoder.md rule R86). -/
def chkByte (a : AccWord) : Byte := (chkOf a).setWidth 8

/-- The byte the phase's rule names (30_encoding.md rule R51, column 'byte offered'); none outside the nine
emitting phases. -/
def offered (s : State) : Option Byte :=
  match s.ph.toNat with
  | 1 => some Config.stxByte
  | 2 => some Config.lfByte
  | 3 => some (nameByte s.gi s.bi)
  | 4 => some Config.spByte
  | 5 => some (digByte s.cnt s.gi s.bi)
  | 6 => some Config.spByte
  | 7 => some (chkByte s.acc)
  | 8 => some Config.crByte
  | 9 => some Config.etxByte
  | _ => none

end Sys2Proof.Machine
end

