-- ==== Sys2Proof/Machine/Flags.lean ====
section
/-! DEFINITION. The sticky flags, the derived flags, the STATUS word, and the advance of the counters with its
overflow bits. -/

namespace Sys2Proof.Machine

/-- Five flags as OVF[4:0], flag i in bit i (10_state.md rule R19). -/
def ovfOfFn (f : Grp → Bool) : OvfFlags :=
  BitVec.ofBool (f 4) ++ BitVec.ofBool (f 3) ++ BitVec.ofBool (f 2) ++ BitVec.ofBool (f 1) ++ BitVec.ofBool (f 0)

/-- Does a counter of w digits stand at its decimal capacity, `10^w - 1` (42_framer.md rule R105)? -/
def atCapacity (c : CntWord) (w : Nat) : Bool := c.toNat = 10 ^ w - 1

/-- One counter's advance as ADV's pseudocode has it: 0 at capacity, else one more, in 32 bits
(42_framer.md rule R105; log entry 7). -/
def bump (c : CntWord) (w : Nat) : CntWord := if atCapacity c w then 0 else c + 1

/-- ADV's five counter values, all from the counters before the step (42_framer.md rule R105). -/
def bumpAll (c : Counters) : Counters := Counters.ofFn (fun g => bump (c.get g) (Config.desc g).width)

/-- The overflow bits of ADV (42_framer.md rule R105). -/
def wraps (c : Counters) : OvfFlags := ovfOfFn (fun g => atCapacity (c.get g) (Config.desc g).width)

/-- The pure function `adv(c)`: each counter plus 1 modulo 10^width, and the overflow bits (42_framer.md rule R100). -/
def adv (c : Counters) : Counters × OvfFlags :=
  (Counters.ofFn (fun g => BitVec.ofNat 32 (((c.get g).toNat + 1) % 10 ^ (Config.desc g).width)),
   ovfOfFn (fun g => (c.get g).toNat = 10 ^ (Config.desc g).width - 1))

/-- BUSY = 1 when PH is not IDLE (10_state.md rule R18). -/
def busy (s : State) : Bool := s.ph != phIdle

/-- TPEND = 1 when TICKQ > 0 (10_state.md rule R18). -/
def tpend (s : State) : Bool := 0 < s.tickq

/-- The port `status`: STATUS = (0, TPEND, TLOST, OVF[4:0], BUSY, GI[2:0], PH[3:0]), bit 15 first
(10_state.md rule R19). -/
def status (s : State) : StatusWord :=
  BitVec.ofBool false ++ BitVec.ofBool (tpend s) ++ BitVec.ofBool s.tlost ++ s.ovf ++ BitVec.ofBool (busy s)
    ++ s.gi ++ s.ph

/-- The port `tx_valid`: 1 exactly in the nine emitting phases (00_scope.md rule R3, 20_memory.md rule R33). -/
def txValid (s : State) : Bool := isEmitting s.ph

/-- The port `tx_data`: the byte offered, or any value while none is (20_memory.md rule R33,
93_implementation_defined.md U3; log entry 2). -/
def txData (s : State) : Byte :=
  match offered s with
  | some b => b
  | none => Config.freeTxData s.edge

/-- The pin vector (rst, tick, tx_valid, tx_ready) at the next edge, rst in bit 3 (30_encoding.md rule R55). -/
def pinVector (s : State) : BitVec 4 :=
  BitVec.ofBool s.input.rst ++ BitVec.ofBool s.input.tick ++ BitVec.ofBool (txValid s)
    ++ BitVec.ofBool s.input.txReady

end Sys2Proof.Machine
end

