-- ==== Sys2Proof/Machine/Ops.lean ====
section
/-! DEFINITION. The operations the meanings share: handing a byte to the transport, the checksum engine's three
actions, the moves of the position (PH, GI, BI), the tick queue, taking a tick and coming back, reset, and what a
clock edge uses up. All right-hand sides read the state before the step (00_scope.md section 7). -/

namespace Sys2Proof.Machine

/-- What a step answers here. -/
abbrev Result := Host.Outcome State Fault Refusal

/-- Goes on with `f` from a next state, and keeps a stop. -/
def andThen (r : Result) (f : State → Result) : Result :=
  match r with
  | .next s => f s
  | .fault e => .fault e
  | .refused e => .refused e

/-! ### The transmit stream (20_memory.md rule R33) -/

/-- Does the transport take an offered byte at the next edge: `tx_ready` = 1 and `rst` = 0? -/
def accepts (s : State) : Bool := s.input.txReady && !s.input.rst

/-- `TX <- TX ++ [b]`; the wire gets the byte when the transport delivers it (10_state.md rule R21,
60_exceptions.md rule R123). -/
def sendByte (b : Byte) (s : State) : State :=
  { s with tx := s.tx ++ [b], wire := if s.input.delivers then s.wire ++ [b] else s.wire }

/-- An emitting phase: its effect happens at the accept and only then. Until it, nothing changes
(20_memory.md rule R33; log entry 12). -/
def atAccept (effect : State → State) (s : State) : Result :=
  if accepts s then .next (effect s) else .next s

/-! ### The checksum engine's actions on ACC (40_checksum.md rules R67 to R70) -/

def accHold (s : State) : State := s

def accClear (s : State) : State := { s with acc := 0 }

/-- `ACC <- (ACC + zext_16(b)) mod 2^16` (40_checksum.md rule R69). -/
def accAdd (b : Byte) (s : State) : State := { s with acc := s.acc + zext16 b }

/-! ### The position (10_state.md rule R14, 42_framer.md rule R110) -/

def goto (p : PhCode) (s : State) : State := { s with ph := p }

/-- The next place in a string of `len` bytes: after the last one BI returns to 0 and the phase is `after`
(41_group_encoder.md rules R82 and R84; log entry 13). -/
def nextInString (len : Nat) (after : PhCode) (s : State) : State :=
  if s.bi.toNat + 1 = len then { s with bi := 0, ph := after } else { s with bi := s.bi + 1 }

/-- The next group, or ETX after the last one (41_group_encoder.md rule R87; log entry 13). -/
def nextGroup (s : State) : State :=
  if s.gi = 4 then { s with gi := 0, ph := phEtx } else { s with gi := s.gi + 1, ph := phLf }

/-! ### The tick, the block's only asynchronous event (60_exceptions.md rules R125 to R128) -/

/-- A tick arrives: it waits in TICKQ, or is lost when TICKQ is full (42_framer.md rule R101). -/
def queueTick (s : State) : State :=
  if s.tickq < Config.tickqMax then { s with tickq := s.tickq + 1 } else { s with tlost := true }

/-- Entry: IDLE takes a pending tick to (STX, 0, 0), saving nothing (42_framer.md rule R102, 60_exceptions.md rule
R127). -/
def takeTick (s : State) : State :=
  { s with tickq := s.tickq - 1, ph := phStx, gi := 0, bi := 0 }

/-- Return: back to IDLE, restoring nothing (60_exceptions.md rule R128). -/
def returnToIdle (s : State) : State := goto phIdle s

/-- All five counters and their flags in one step (42_framer.md rule R105, 20_memory.md rule R38). -/
def advanceCounters (s : State) : State :=
  { s with cnt := bumpAll s.cnt, ovf := s.ovf ||| wraps s.cnt }

/-! ### What each emitting phase does at its accept (41_group_encoder.md, 42_framer.md) -/

def acceptStx (s : State) : State := goto phLf (sendByte Config.stxByte s)

def acceptLf (s : State) : State := goto phName (accClear (sendByte Config.lfByte s))

def acceptName (s : State) : State :=
  nextInString (nlenOf s.gi) phSp1 (accAdd (nameByte s.gi s.bi) (sendByte (nameByte s.gi s.bi) s))

def acceptSp1 (s : State) : State := goto phDig (accAdd Config.spByte (sendByte Config.spByte s))

def acceptDig (s : State) : State :=
  nextInString (widthOf s.gi) phSp2 (accAdd (digByte s.cnt s.gi s.bi) (sendByte (digByte s.cnt s.gi s.bi) s))

def acceptSp2 (s : State) : State := goto phChk (accHold (sendByte Config.spByte s))

def acceptChk (s : State) : State := goto phCr (accHold (sendByte (chkByte s.acc) s))

def acceptCr (s : State) : State := nextGroup (accHold (sendByte Config.crByte s))

def acceptEtx (s : State) : State := goto phAdv (accHold (sendByte Config.etxByte s))

/-- The accept of whatever phase the sequencer is in; outside the nine emitting phases `tx_ready` is ignored
(20_memory.md rule R33; log entry 8). -/
def acceptPhase (s : State) : State :=
  match s.ph.toNat with
  | 1 => acceptStx s
  | 2 => acceptLf s
  | 3 => acceptName s
  | 4 => acceptSp1 s
  | 5 => acceptDig s
  | 6 => acceptSp2 s
  | 7 => acceptChk s
  | 8 => acceptCr s
  | 9 => acceptEtx s
  | _ => s

/-! ### Reset and the clock edge -/

/-- RESET: every state element takes its reset value; the histories TX and wire are not changed
(70_reset_and_hazards.md rules R140 and R141). -/
def resetBlock (s : State) : State :=
  { s with
    cnt := Config.init, acc := 0, ph := phIdle, gi := 0, bi := 0, tickq := 0, ovf := 0, tlost := false }

/-- A clock edge is used up: the environment's next edge comes next, and `tx_data` is drawn afresh
(93_implementation_defined.md U3; log entries 2 and 5). -/
def passEdge (s : State) : State := { s with inputs := s.inputs.tail, edge := s.edge + 1 }

/-- The engine operation FRM drives at the next edge when the sequencer takes part in it: CK.CLR at the accept of
LF, CK.ADD with the accepted byte at the accept of NAME, SP1 and DIG, CK.HOLD otherwise
(30_encoding.md rule R53). -/
def ckDriven (s : State) : Instr :=
  if accepts s then
    match s.ph.toNat with
    | 2 => .ckClr
    | 3 => .ckAdd (nameByte s.gi s.bi)
    | 4 => .ckAdd Config.spByte
    | 5 => .ckAdd (digByte s.cnt s.gi s.bi)
    | _ => .ckHold
  else .ckHold

end Sys2Proof.Machine
end

