-- ==== Sys2Proof/Machine/Checksum.lean ====
section
/-! DEFINITION. The checksum engine's four operations (40_checksum.md). They act on ACC alone: no flag, no
exception, no stall (rule R65). -/

namespace Sys2Proof.Machine

/-- CK.HOLD (40_checksum.md rule R67). -/
def execCkHold (s : State) : Result := .next (accHold s)

/-- CK.CLR (40_checksum.md rule R68). -/
def execCkClr (s : State) : Result := .next (accClear s)

/-- CK.ADD (40_checksum.md rule R69). -/
def execCkAdd (ckByte : Byte) (s : State) : Result := .next (accAdd ckByte s)

/-- CK.RSV holds, as CK.HOLD does (40_checksum.md rule R70). -/
def execCkRsv (s : State) : Result := .next (accHold s)

end Sys2Proof.Machine
end

