-- ==== Sys2Proof/Machine/Framer.lean ====
section
/-! DEFINITION. The frame sequencer's phases IDLE, STX, ETX and ADV (42_framer.md) and the reserved phase codes
(30_encoding.md rule R54). -/

namespace Sys2Proof.Machine

/-- IDLE: takes a pending tick; with none it waits and nothing changes (42_framer.md rule R102). -/
def execIdle (s : State) : Result := if 0 < s.tickq then .next (takeTick s) else .next s

/-- STX (42_framer.md rule R103). -/
def execStx (s : State) : Result := atAccept acceptStx s

/-- ETX (42_framer.md rule R104). -/
def execEtx (s : State) : Result := atAccept acceptEtx s

/-- ADV: always enabled, no accept (42_framer.md rule R105). -/
def execAdv (s : State) : Result := .next (returnToIdle (advanceCounters s))

/-- PH.RSV11: the reserved code 1011 has no behaviour; the sequencer stops (30_encoding.md rule R54,
93_implementation_defined.md U1). -/
def execPhRsv11 (_s : State) : Result := .fault (.reservedPhase 11)

/-- PH.RSV12_15: the reserved codes 11rr have no behaviour; the sequencer stops (30_encoding.md rule R54,
93_implementation_defined.md U1). -/
def execPhRsv12to15 (code : PhCode) (_s : State) : Result := .fault (.reservedPhase code)

end Sys2Proof.Machine
end

