-- ==== Sys2Proof/Machine/Group.lean ====
section
/-! DEFINITION. The group encoder's seven phases (41_group_encoder.md). Each happens only at an accept. -/

namespace Sys2Proof.Machine

/-- LF (41_group_encoder.md rule R81). -/
def execLf (s : State) : Result := atAccept acceptLf s

/-- NAME (41_group_encoder.md rule R82). -/
def execName (s : State) : Result := atAccept acceptName s

/-- SP1 (41_group_encoder.md rule R83). -/
def execSp1 (s : State) : Result := atAccept acceptSp1 s

/-- DIG (41_group_encoder.md rule R84). -/
def execDig (s : State) : Result := atAccept acceptDig s

/-- SP2 (41_group_encoder.md rule R85). -/
def execSp2 (s : State) : Result := atAccept acceptSp2 s

/-- CHK (41_group_encoder.md rule R86). -/
def execChk (s : State) : Result := atAccept acceptChk s

/-- CR (41_group_encoder.md rule R87). -/
def execCr (s : State) : Result := atAccept acceptCr s

end Sys2Proof.Machine
end

