-- ==== Sys2Proof/Machine/Pins.lean ====
section
/-! DEFINITION. The three pin events (30_encoding.md rule R55): what each does when it happens. -/

namespace Sys2Proof.Machine

/-- RESET (70_reset_and_hazards.md rule R140). -/
def execReset (s : State) : Result := .next (resetBlock s)

/-- TICK (42_framer.md rule R101). -/
def execTick (s : State) : Result := .next (queueTick s)

/-- ACCEPT: the transport takes the byte on offer, and the emitting phase's step happens with it
(20_memory.md rule R33). -/
def execAccept (s : State) : Result := .next (acceptPhase s)

end Sys2Proof.Machine
end

