-- ==== Sys2Proof/Machine/Dispatch.lean ====
section
/-! DEFINITION. One meaning for each operation of spec/opcode_table.json. -/

namespace Sys2Proof.Machine

def exec (i : Instr) (s : State) : Host.Outcome State Fault Refusal :=
  match i with
  | .ckHold => Sys2Proof.Machine.execCkHold s
  | .ckClr => Sys2Proof.Machine.execCkClr s
  | .ckAdd ckByte => Sys2Proof.Machine.execCkAdd ckByte s
  | .ckRsv => Sys2Proof.Machine.execCkRsv s
  | .idle => Sys2Proof.Machine.execIdle s
  | .stx => Sys2Proof.Machine.execStx s
  | .lf => Sys2Proof.Machine.execLf s
  | .name => Sys2Proof.Machine.execName s
  | .sp1 => Sys2Proof.Machine.execSp1 s
  | .dig => Sys2Proof.Machine.execDig s
  | .sp2 => Sys2Proof.Machine.execSp2 s
  | .chk => Sys2Proof.Machine.execChk s
  | .cr => Sys2Proof.Machine.execCr s
  | .etx => Sys2Proof.Machine.execEtx s
  | .adv => Sys2Proof.Machine.execAdv s
  | .phRsv11 => Sys2Proof.Machine.execPhRsv11 s
  | .phRsv12to15 code => Sys2Proof.Machine.execPhRsv12to15 code s
  | .reset => Sys2Proof.Machine.execReset s
  | .tick => Sys2Proof.Machine.execTick s
  | .accept => Sys2Proof.Machine.execAccept s

end Sys2Proof.Machine
end

