-- ==== Sys2Proof/Machine/Edge.lean ====
section
/-! DEFINITION. One rising edge of `clk`: which operations happen at it and in which order (00_scope.md rule R4,
60_exceptions.md rule R126), and how a table word is placed for the next edge to run. -/

namespace Sys2Proof.Machine

/-- The sequencer's next operation, selected by PH: the block's instruction fetch (30_encoding.md rule R51). -/
def fetch (s : State) : Instr := decodePhase s.ph

/-- The TICK event, when the pin asks for it. -/
def tickAtEdge (asked : Bool) (s : State) : Result := if asked then exec .tick s else .next s

/-- One clock edge. With `rst` = 1 RESET wins over everything. Otherwise the sequencer's operation runs (an
emitting phase without `tx_ready` changes nothing), then the TICK, if the pin is 1 (60_exceptions.md rule R126; log entry 12). -/
def clockEdge (s : State) : Result :=
  andThen
    (if s.input.rst then exec .reset s
     else andThen (exec (fetch s) s) (tickAtEdge s.input.tick))
    (fun t => .next (passEdge t))

/-- An edge at which the transport takes the byte and nothing else happens. -/
def readyEdge : EdgeInput := { rst := false, tick := false, txReady := true, delivers := true }

/-- The phase in which FRM drives an engine code at the accept (30_encoding.md rule R53; CK.RSV is never driven and
holds, as CK.HOLD does). -/
def phaseDriving (op : Nat) : PhCode :=
  match op with
  | 1 => phLf
  | 2 => phSp1
  | _ => phSp2

/-- Places a table word where the next edge fetches: a phase code in PH, with a transport that is ready at that
edge. A CK2 code is not fetched but driven: PH is then set to a phase that drives it (log entry 4). -/
def placeCode (s : State) (nbits w : Nat) : State :=
  { s with
    ph := match tableFormat nbits with
      | .ck2 => phaseDriving w
      | _ => BitVec.ofNat 4 w
    inputs := readyEdge :: s.inputs }

end Sys2Proof.Machine
end

