-- ==== Sys2Proof/Machine/Step.lean ====
section
/-! DEFINITION. The machine's step, one rising edge of `clk`, and the placing of an operation for it. -/

namespace Sys2Proof.Machine

/-- One step is one clock edge (00_scope.md rule R4, 70_reset_and_hazards.md rule R149). -/
def step (s : State) : Host.Outcome State Fault Refusal := clockEdge s

/-- `s` with a table word placed so that the very next step runs it (log entry 4). -/
def State.withFetchWord (s : State) (nbits w : Nat) : State := placeCode s nbits w

end Sys2Proof.Machine
end

