-- ==== Sys2Proof/Safety.lean ====
section
/-! DEFINITION. What a safe run of the block is, and the words claims about it use: the invariants the spec states
(10_state.md rules R11, R15, R16 and R17), the stream the block owes to its transport (42_framer.md rules R107 and
R108), sequences of operations (30_encoding.md rules R58 and R59) and states that agree but for something. -/

namespace Sys2Proof.Machine

/-- The step from `s` does not fault. A safe run is one in which every state is safe. -/
def Safe (s : State) : Prop := ∀ e, step s ≠ .fault e

/-! ### Invariants of the state -/

/-- The position invariants of 10_state.md rule R15. -/
def PositionOk (s : State) : Prop :=
  s.ph.toNat ≤ 10 ∧ s.gi.toNat ≤ 4
    ∧ (s.ph = phIdle ∨ s.ph = phStx ∨ s.ph = phEtx ∨ s.ph = phAdv → s.gi = 0)
    ∧ (s.ph ≠ phName → s.ph ≠ phDig → s.bi = 0)
    ∧ (s.ph = phName → s.bi.toNat < nlenOf s.gi)
    ∧ (s.ph = phDig → s.bi.toNat < widthOf s.gi)

/-- `0 <= CNT[i] < 10^DESC[i].width` for every i (10_state.md rule R11). -/
def CountersInRange (c : Counters) : Prop := ∀ g : Grp, (c.get g).toNat < 10 ^ (Config.desc g).width

/-- TICKQ is in 0..TICKQ_MAX (10_state.md rule R17). -/
def QueueOk (s : State) : Prop := s.tickq ≤ Config.tickqMax

/-- The bytes of the current group that are in ACC, while a group is being emitted: none before the first name
byte, then the name bytes sent, the first space, the digits sent (40_checksum.md rule R76). -/
def summedBytes (s : State) : List Byte :=
  match grp? s.gi with
  | none => []
  | some g =>
    let name := (Config.desc g).name
    let ds := digits (s.cnt.get g).toNat (Config.desc g).width
    match s.ph.toNat with
    | 3 => name.take s.bi.toNat
    | 4 => name
    | 5 => name ++ [Config.spByte] ++ ds.take s.bi.toNat
    | _ => name ++ [Config.spByte] ++ ds

/-- From NAME to CR, ACC holds the sum of exactly those bytes modulo 2^16 (10_state.md rule R16,
40_checksum.md rule R76). -/
def AccOk (s : State) : Prop :=
  3 ≤ s.ph.toNat → s.ph.toNat ≤ 8 → s.acc = BitVec.ofNat 16 (byteSum (summedBytes s))

/-- The block's invariant: position, counters, tick queue and accumulator. -/
structure BlockOk (s : State) : Prop where
  position : PositionOk s
  counters : CountersInRange s.cnt
  queue    : QueueOk s
  acc      : AccOk s

/-! ### The stream (42_framer.md rules R107 and R108) -/

/-- The counters after n advances: `c_(n+1) = adv(c_n)` (42_framer.md rule R108). -/
def advances (c : Counters) : Nat → Counters
  | 0 => c
  | n + 1 => (adv (advances c n)).1

/-- The first n whole frames after a RESET, one after the other (42_framer.md rule R108). -/
def frames : Nat → Option (List Byte)
  | 0 => some []
  | n + 1 =>
    match frames n, frame (advances Config.init n) with
    | some done, some f => some (done ++ f)
    | _, _ => none

/-- Where group n starts in a Frame: after STX and the groups before it, each `nlen + width + 5` bytes long
(30_encoding.md rule R57). -/
def groupStart : Nat → Nat
  | 0 => 1
  | n + 1 => groupStart n + (nlenOf (BitVec.ofNat 3 n) + widthOf (BitVec.ofNat 3 n) + 5)

/-- How many bytes of the frame in progress the transport has accepted at a position (42_framer.md rule R110). -/
def sentInFrame (s : State) : Nat :=
  let start := groupStart s.gi.toNat
  match s.ph.toNat with
  | 2 => start
  | 3 => start + 1 + s.bi.toNat
  | 4 => start + 1 + nlenOf s.gi
  | 5 => start + 2 + nlenOf s.gi + s.bi.toNat
  | 6 => start + 2 + nlenOf s.gi + widthOf s.gi
  | 7 => start + 3 + nlenOf s.gi + widthOf s.gi
  | 8 => start + 4 + nlenOf s.gi + widthOf s.gi
  | 9 => groupStart 5
  | 10 => groupStart 5 + 1
  | _ => 0

/-- What the block owes its transport: after the bytes `before`, which had been accepted when the last RESET came, it
has sent n whole frames of the n first counter values, then the first bytes of the next frame, as many as the position
says; and OVF[i] is set exactly when counter i has wrapped, that is when `10^width_i <= INIT[i] + n` (42_framer.md rules
R107 and R108). -/
def StreamOk (before : List Byte) (s : State) : Prop :=
  ∃ (done cur : List Byte) (n : Nat),
    s.cnt = advances Config.init n ∧ frames n = some done ∧ frame s.cnt = some cur
      ∧ s.tx = before ++ done ++ cur.take (sentInFrame s)
      ∧ ∀ g : Grp, s.ovf.getLsbD g.val
          = decide (10 ^ (Config.desc g).width ≤ (Config.init.get g).toNat + n)

/-- The wire carries a subsequence of TX (60_exceptions.md rule R123). -/
def WireOk (s : State) : Prop := s.wire.Sublist s.tx

/-! ### Sequences of operations -/

/-- The operations one after the other, stopping at the first fault: an event script (30_encoding.md rule R58). -/
def runOps : List Instr → State → Result
  | [], s => .next s
  | i :: is, s => andThen (exec i s) (runOps is)

/-- `GROUP g` (30_encoding.md rule R59). -/
def groupOps (g : Grp) : List Instr :=
  [.lf] ++ List.replicate (Config.desc g).nlen .name ++ [.sp1]
    ++ List.replicate (Config.desc g).width .dig ++ [.sp2, .chk, .cr]

/-- `FRAME` (30_encoding.md rule R59). -/
def frameOps : List Instr :=
  [.idle, .stx] ++ groupOps 0 ++ groupOps 1 ++ groupOps 2 ++ groupOps 3 ++ groupOps 4 ++ [.etx, .adv]

/-- `k` sequencer operations, each the one PH selects at its turn, the transport ready or not as the next edge has
it; with the list of the operations performed. -/
def runSequencer : Nat → State → List Instr × Result
  | 0, s => ([], .next s)
  | k + 1, s =>
    match exec (fetch s) s with
    | .next t => (fetch s :: (runSequencer k t).1, (runSequencer k t).2)
    | .fault e => ([fetch s], .fault e)
    | .refused e => ([fetch s], .refused e)

/-! ### States that agree but for something -/

/-- The states agree on everything but what the transport delivers, now and later, and the wire
(60_exceptions.md rule R123). -/
def AgreeButDelivery (s t : State) : Prop :=
  t = { s with wire := t.wire, inputs := t.inputs }
    ∧ t.inputs.map (fun e => { e with delivers := false }) = s.inputs.map (fun e => { e with delivers := false })

/-- The states agree on everything but the flags OVF and TLOST (10_state.md rule R18). -/
def AgreeButFlags (s t : State) : Prop := t = { s with ovf := t.ovf, tlost := t.tlost }

end Sys2Proof.Machine
end

