-- ==== Sys2Proof/Certificates/Slice0/Obligations.lean ====
section
/-! DEFINITION. The statements for the provers. Each docstring names the rule of spec/ it formalises. A next state
written as `{ s with … }` says the result and the frame at once: every field not named is unchanged. There is no
addressable memory in this block (20_memory.md rule R30); its place in the frames is taken by TX and the wire. -/

open Sys2Proof Sys2Proof.Machine

/-! ## Reset -/

/-- 10_state.md rule R23 and 70_reset_and_hazards.md rule R140: the values after RESET, in the state the machine
starts from and after a RESET of any state; TX (and the wire) is not changed by RESET. That State.reset starts from
empty histories, no listed edge and edge 0 is the model's choice (log entry 6) and is not stated. -/
def Obligations.ResetGivesEveryElementItsValue : Prop :=
  (∃ t0 : State, State.reset = { t0 with
      cnt := { base := 0, hchc := 1111, hchp := 2222, iinst := 120, papp := 16254 },
      acc := 0, ph := 0, gi := 0, bi := 0, tickq := 0, ovf := 0, tlost := false })
  ∧ status State.reset = 0 ∧ txValid State.reset = false
  ∧ ∀ s : State, ∃ t : State,
      exec .reset s = .next t
      ∧ t = { s with
          cnt := { base := 0, hchc := 1111, hchp := 2222, iinst := 120, papp := 16254 },
          acc := 0, ph := 0, gi := 0, bi := 0, tickq := 0, ovf := 0, tlost := false }
      ∧ status t = 0 ∧ txValid t = false

/-- 60_exceptions.md rule R126 (1) and 70_reset_and_hazards.md rules R141 and R142: at an edge with `rst` = 1 the
state becomes the reset state from ANY state, whatever `tick` and `tx_ready` are; nothing is appended to TX. That a
reserved phase code is left by RESET too is the model's reading (log entry 9). -/
def Obligations.ResetEdgeWinsOverEverything : Prop :=
  ∀ s : State, s.input.rst = true →
    step s = .next { s with
      cnt := { base := 0, hchc := 1111, hchp := 2222, iinst := 120, papp := 16254 },
      acc := 0, ph := 0, gi := 0, bi := 0, tickq := 0, ovf := 0, tlost := false,
      inputs := s.inputs.tail, edge := s.edge + 1 }

/-! ## The checksum engine -/

/-- 40_checksum.md rules R67 and R70: CK.HOLD and CK.RSV leave ACC, and everything else, as it is. -/
def Obligations.CkHoldAndCkRsvKeepTheState : Prop :=
  ∀ s : State, exec .ckHold s = .next s ∧ exec .ckRsv s = .next s

/-- 40_checksum.md rule R68: `ACC <- 0`, and nothing else changes. -/
def Obligations.CkClrClearsAcc : Prop :=
  ∀ s : State, exec .ckClr s = .next { s with acc := 0 }

/-- 40_checksum.md rule R69: `ACC <- (ACC + zext_16(ck_byte)) mod 2^16`, and nothing else changes. -/
def Obligations.CkAddAddsTheByteModulo65536 : Prop :=
  ∀ (s : State) (b : Byte),
    exec (.ckAdd b) s = .next { s with acc := BitVec.ofNat 16 ((s.acc.toNat + b.toNat) % 65536) }

/-- 40_checksum.md rules R71 and R73: the output `chk(a)` is `(a & 0x3F) + 0x20`, always 0x20..0x5F, with the bit
pattern `(a[5], not a[5], a[4:0])`, and 0x20 exactly for the multiples of 64. -/
def Obligations.ChkMasksThenOffsets : Prop :=
  ∀ a : AccWord,
    (chkOf a).toNat = a.toNat % 64 + 0x20 ∧ 0x20 ≤ (chkOf a).toNat ∧ (chkOf a).toNat ≤ 0x5F
    ∧ (chkOf a).getLsbD 6 = a.getLsbD 5 ∧ (chkOf a).getLsbD 5 = !a.getLsbD 5
    ∧ (∀ i < 5, (chkOf a).getLsbD i = a.getLsbD i)
    ∧ (chkOf a = 0x20 ↔ a.toNat % 64 = 0)

/-- 40_checksum.md rules R72 and R74: CK.CLR and then CK.ADD of the bytes of a list in ANY order leave their sum
modulo 2^16 in ACC and nothing else changed, and the output is then `cksum` of the list. -/
def Obligations.EngineComputesTheChecksumInAnyOrder : Prop :=
  ∀ (s : State) (bytes order : List Byte), order.Perm bytes →
    ∃ t : State,
      runOps (.ckClr :: order.map Instr.ckAdd) s = .next t
      ∧ t = { s with acc := BitVec.ofNat 16 (byteSum bytes) }
      ∧ chkOf t.acc = cksum bytes

/-- 40_checksum.md rule R75: if the sums of two byte lists differ by d, their checksums satisfy
`cksum(s') - 0x20 = (cksum(s) - 0x20 + d) mod 64`. -/
def Obligations.ChecksumIncrementLaw : Prop :=
  ∀ (s s' : List Byte) (d : Int), (byteSum s' : Int) = byteSum s + d →
    ((cksum s').toNat : Int) - 0x20 = (((cksum s).toNat : Int) - 0x20 + d) % 64

/-- 30_encoding.md rule R53: at every clock edge without RESET, ACC becomes what the engine operation that FRM drives at
this edge (`ckDriven`) makes of it; FRM drives CK.CLR exactly at the accept of LF, CK.ADD exactly at the accept of NAME,
SP1 and DIG, with the accepted byte, CK.HOLD exactly otherwise, and never CK.RSV. -/
def Obligations.EnginePerformsWhatTheFramerDrives : Prop :=
  ∀ s t : State, s.input.rst = false → step s = .next t →
    (∃ u : State, exec (ckDriven s) s = .next u ∧ t.acc = u.acc)
    ∧ (ckDriven s = .ckClr ↔ s.ph = phLf ∧ s.input.txReady = true)
    ∧ (∀ b, ckDriven s = .ckAdd b ↔
        (s.ph = phName ∨ s.ph = phSp1 ∨ s.ph = phDig) ∧ s.input.txReady = true ∧ offered s = some b)
    ∧ (ckDriven s = .ckHold ↔
        ¬((s.ph = phLf ∨ s.ph = phName ∨ s.ph = phSp1 ∨ s.ph = phDig) ∧ s.input.txReady = true))
    ∧ ckDriven s ≠ .ckRsv

/-! ## The formats -/

/-- 30_encoding.md rule R48 and 41_group_encoder.md rule R90: `dec(v, w)` is w digit bytes, most significant first,
for `v < 10^w` and `1 <= w <= 9`, and has no result for `v >= 10^w`. -/
def Obligations.DecGivesPaddedDigitsOrRefuses : Prop :=
  ∀ v w : Nat, 1 ≤ w → w ≤ 9 →
    (v < 10 ^ w → ∃ ds : List Byte, dec v w = some ds ∧ ds.length = w
      ∧ ∀ k < w, ds[k]? = some (BitVec.ofNat 8 (0x30 + (v / 10 ^ (w - 1 - k)) % 10)))
    ∧ (10 ^ w ≤ v → dec v w = none)

/-- 30_encoding.md rule R46, 41_group_encoder.md rule R80 and 40_checksum.md rule R66: the Data Group of
(name, v, w), byte by byte, with its checksum over name, first space and digits; no result for `v >= 10^w`
(41_group_encoder.md rule R90). -/
def Obligations.DataGroupFormat : Prop :=
  ∀ (name : List Byte) (v w : Nat), name ≠ [] → 1 ≤ w → w ≤ 9 →
    (v < 10 ^ w → ∃ ds : List Byte, ∃ c : Byte,
      dec v w = some ds
      ∧ c.toNat = byteSum (name ++ [0x20] ++ ds) % 64 + 0x20
      ∧ group name v w = some ([0x0A] ++ (name ++ [0x20] ++ ds) ++ [0x20, c, 0x0D])
      ∧ ∀ gr, group name v w = some gr → gr.length = name.length + w + 5)
    ∧ (10 ^ w ≤ v → group name v w = none)

/-- 30_encoding.md rules R47 and R57, 42_framer.md rule R100: a Frame is STX, the five Data Groups in index order,
ETX; the groups have 18, 18, 18, 13 and 14 bytes and the Frame 83. -/
def Obligations.FrameFormat : Prop :=
  ∀ c : Counters, CountersInRange c →
    ∃ g0 g1 g2 g3 g4 : List Byte,
      group [0x42, 0x41, 0x53, 0x45] c.base.toNat 9 = some g0
      ∧ group [0x48, 0x43, 0x48, 0x43] c.hchc.toNat 9 = some g1
      ∧ group [0x48, 0x43, 0x48, 0x50] c.hchp.toNat 9 = some g2
      ∧ group [0x49, 0x49, 0x4E, 0x53, 0x54] c.iinst.toNat 3 = some g3
      ∧ group [0x50, 0x41, 0x50, 0x50] c.papp.toNat 5 = some g4
      ∧ frame c = some ([0x02] ++ g0 ++ g1 ++ g2 ++ g3 ++ g4 ++ [0x03])
      ∧ g0.length = 18 ∧ g1.length = 18 ∧ g2.length = 18 ∧ g3.length = 13 ∧ g4.length = 14
      ∧ ([0x02] ++ g0 ++ g1 ++ g2 ++ g3 ++ g4 ++ [0x03] : List Byte).length = 83

/-- 30_encoding.md rule R56, 42_framer.md rule R109 and 95_test_vectors.md V4: every byte of a Frame is a framing byte
or lies in 0x20..0x5F, and the framing bytes stand in their places and nowhere else: STX at offset 0, ETX at offset 82,
LF at the head and CR at the end of each of the five groups. -/
def Obligations.FrameAlphabet : Prop :=
  ∀ (c : Counters) (f : List Byte), CountersInRange c → frame c = some f →
    (∀ b ∈ f, b = 0x02 ∨ b = 0x03 ∨ b = 0x0A ∨ b = 0x0D ∨ (0x20 ≤ b.toNat ∧ b.toNat < 0x60))
    ∧ (∀ k : Nat,
        (f[k]? = some 0x02 ↔ k = 0) ∧ (f[k]? = some 0x03 ↔ k = 82)
        ∧ (f[k]? = some 0x0A ↔ k ∈ [1, 19, 37, 55, 68]) ∧ (f[k]? = some 0x0D ↔ k ∈ [18, 36, 54, 67, 81]))
    ∧ f.count 0x02 = 1 ∧ f.count 0x03 = 1 ∧ f.count 0x0A = 5 ∧ f.count 0x0D = 5

/-- 70_reset_and_hazards.md rule R144: `frame(INIT)` is the 83 bytes of 95_test_vectors.md V9. That the block sends
it first after RESET is part of StreamInvariantIsKept. -/
def Obligations.FrameOfInitialCounters : Prop :=
  frame Config.init = some
    ([0x02,
      0x0A, 0x42, 0x41, 0x53, 0x45, 0x20, 0x30, 0x30, 0x30, 0x30, 0x30, 0x30, 0x30, 0x30, 0x30, 0x20, 0x4B, 0x0D]
    ++ [0x0A, 0x48, 0x43, 0x48, 0x43, 0x20, 0x30, 0x30, 0x30, 0x30, 0x30, 0x31, 0x31, 0x31, 0x31, 0x20, 0x4A, 0x0D]
    ++ [0x0A, 0x48, 0x43, 0x48, 0x50, 0x20, 0x30, 0x30, 0x30, 0x30, 0x30, 0x32, 0x32, 0x32, 0x32, 0x20, 0x5B, 0x0D]
    ++ [0x0A, 0x49, 0x49, 0x4E, 0x53, 0x54, 0x20, 0x31, 0x32, 0x30, 0x20, 0x5A, 0x0D]
    ++ [0x0A, 0x50, 0x41, 0x50, 0x50, 0x20, 0x31, 0x36, 0x32, 0x35, 0x34, 0x20, 0x33, 0x0D]
    ++ [0x03])

/-! ## The sequencer's operations, one by one -/

/-- 42_framer.md rule R102: in IDLE no byte is offered; with a tick pending IDLE takes it, to (STX, 0, 0); with none
it makes no step and nothing changes. -/
def Obligations.IdleTakesAPendingTick : Prop :=
  ∀ s : State,
    (0 < s.tickq → exec .idle s = .next { s with tickq := s.tickq - 1, ph := 1, gi := 0, bi := 0 })
    ∧ (s.tickq = 0 → exec .idle s = .next s)
    ∧ (s.ph = 0 → txValid s = false)

/-- 42_framer.md rules R103 and R104: STX offers 0x02 and ETX 0x03; at the accept STX sends 0x02 and goes to LF, ETX
sends 0x03 and goes to ADV; ACC, the counters and the rest stay. -/
def Obligations.StxAndEtxAtTheAccept : Prop :=
  ∀ s : State, s.input.txReady = true → s.input.rst = false →
    exec .stx s = .next { s with
        tx := s.tx ++ [0x02], wire := if s.input.delivers then s.wire ++ [0x02] else s.wire, ph := 2 }
    ∧ exec .etx s = .next { s with
        tx := s.tx ++ [0x03], wire := if s.input.delivers then s.wire ++ [0x03] else s.wire, ph := 10 }
    ∧ (s.ph = 1 → txValid s = true ∧ txData s = 0x02) ∧ (s.ph = 9 → txValid s = true ∧ txData s = 0x03)

/-- 41_group_encoder.md rule R81: LF offers 0x0A; at the accept it sends 0x0A, clears ACC and goes to NAME. -/
def Obligations.LfAtTheAccept : Prop :=
  ∀ s : State, s.input.txReady = true → s.input.rst = false →
    exec .lf s = .next { s with
      tx := s.tx ++ [0x0A], wire := if s.input.delivers then s.wire ++ [0x0A] else s.wire, acc := 0, ph := 3 }
    ∧ (s.ph = 2 → txValid s = true ∧ txData s = 0x0A)

/-- 41_group_encoder.md rule R82: NAME offers DESC[GI].name[BI]; at the accept it sends that byte, adds it to ACC and
moves to the next byte, or after the last one to SP1 with BI = 0. -/
def Obligations.NameAtTheAccept : Prop :=
  ∀ (s : State) (g : Grp), s.input.txReady = true → s.input.rst = false →
    s.gi.toNat = g.val → s.bi.toNat < (Config.desc g).nlen →
    ∃ b : Byte, (Config.desc g).name[s.bi.toNat]? = some b
      ∧ exec .name s = .next { s with
          tx := s.tx ++ [b], wire := if s.input.delivers then s.wire ++ [b] else s.wire,
          acc := BitVec.ofNat 16 ((s.acc.toNat + b.toNat) % 65536),
          bi := if s.bi.toNat = (Config.desc g).nlen - 1 then 0 else s.bi + 1,
          ph := if s.bi.toNat = (Config.desc g).nlen - 1 then 4 else s.ph }
      ∧ (s.ph = 3 → txValid s = true ∧ txData s = b)

/-- NAME completes at the accept in every state. For GI in 0..4 the length is DESC[GI].nlen, and where the name has a
byte BI that byte is sent. The model's choice: for indices the table does not have, the byte and the length are free
(log entry 3), BI grows in its 4 bits (log entry 13), and everything else is as in 41_group_encoder.md rule R82. -/
def Obligations.NameCompletesAtAnyIndices : Prop :=
  ∀ s : State, s.input.txReady = true → s.input.rst = false →
    ∃ (b : Byte) (n : Nat),
      (∀ g : Grp, s.gi.toNat = g.val → n = (Config.desc g).nlen
        ∧ ∀ b', (Config.desc g).name[s.bi.toNat]? = some b' → b = b')
      ∧ n = nlenOf s.gi ∧ b = nameByte s.gi s.bi
      ∧ exec .name s = .next { s with
          tx := s.tx ++ [b], wire := if s.input.delivers then s.wire ++ [b] else s.wire,
          acc := BitVec.ofNat 16 ((s.acc.toNat + b.toNat) % 65536),
          bi := if s.bi.toNat + 1 = n then 0 else s.bi + 1,
          ph := if s.bi.toNat + 1 = n then 4 else s.ph }

/-- 41_group_encoder.md rule R83: SP1 offers 0x20; at the accept it sends it, adds it to ACC and goes to DIG. -/
def Obligations.Sp1AtTheAccept : Prop :=
  ∀ s : State, s.input.txReady = true → s.input.rst = false →
    exec .sp1 s = .next { s with
      tx := s.tx ++ [0x20], wire := if s.input.delivers then s.wire ++ [0x20] else s.wire,
      acc := BitVec.ofNat 16 ((s.acc.toNat + 0x20) % 65536), ph := 5 }
    ∧ (s.ph = 4 → txValid s = true ∧ txData s = 0x20)

/-- 41_group_encoder.md rule R84: DIG offers digit BI of CNT[GI], most significant first; at the accept it sends it,
adds it to ACC and moves to the next digit, or after the last one to SP2 with BI = 0. -/
def Obligations.DigAtTheAccept : Prop :=
  ∀ (s : State) (g : Grp) (w : Nat) (b : Byte), s.input.txReady = true → s.input.rst = false →
    s.gi.toNat = g.val → w = (Config.desc g).width → s.bi.toNat < w → (s.cnt.get g).toNat < 10 ^ w →
    b = BitVec.ofNat 8 (0x30 + ((s.cnt.get g).toNat / 10 ^ (w - 1 - s.bi.toNat)) % 10) →
    (∃ ds, dec (s.cnt.get g).toNat w = some ds ∧ ds[s.bi.toNat]? = some b)
    ∧ exec .dig s = .next { s with
        tx := s.tx ++ [b], wire := if s.input.delivers then s.wire ++ [b] else s.wire,
        acc := BitVec.ofNat 16 ((s.acc.toNat + b.toNat) % 65536),
        bi := if s.bi.toNat = w - 1 then 0 else s.bi + 1,
        ph := if s.bi.toNat = w - 1 then 6 else s.ph }
    ∧ (s.ph = 5 → txValid s = true ∧ txData s = b)

/-- DIG completes at the accept in every state. The model's choice: for indices the tables do not have the byte and the
width are free (log entry 3), BI grows in its 4 bits (log entry 13), for a counter at or above its capacity the digit is
what the formula of 41_group_encoder.md rule R84 gives (log entry 7), and everything else is as in that rule. -/
def Obligations.DigCompletesAtAnyIndices : Prop :=
  ∀ s : State, s.input.txReady = true → s.input.rst = false →
    ∃ (b : Byte) (w : Nat),
      (∀ g : Grp, s.gi.toNat = g.val → w = (Config.desc g).width
        ∧ (s.bi.toNat < w → b = BitVec.ofNat 8 (0x30 + ((s.cnt.get g).toNat / 10 ^ (w - 1 - s.bi.toNat)) % 10)))
      ∧ w = widthOf s.gi ∧ b = digByte s.cnt s.gi s.bi
      ∧ exec .dig s = .next { s with
          tx := s.tx ++ [b], wire := if s.input.delivers then s.wire ++ [b] else s.wire,
          acc := BitVec.ofNat 16 ((s.acc.toNat + b.toNat) % 65536),
          bi := if s.bi.toNat + 1 = w then 0 else s.bi + 1,
          ph := if s.bi.toNat + 1 = w then 6 else s.ph }

/-- 41_group_encoder.md rules R85 and R86: SP2 offers 0x20 and CHK `(ACC & 0x3F) + 0x20`; at the accept SP2 sends its
byte and goes to CHK, CHK sends its byte and goes to CR; ACC keeps the sum. -/
def Obligations.Sp2AndChkAtTheAccept : Prop :=
  ∀ s : State, s.input.txReady = true → s.input.rst = false →
    exec .sp2 s = .next { s with
        tx := s.tx ++ [0x20], wire := if s.input.delivers then s.wire ++ [0x20] else s.wire, ph := 7 }
    ∧ exec .chk s = .next { s with
        tx := s.tx ++ [BitVec.ofNat 8 (s.acc.toNat % 64 + 0x20)],
        wire := if s.input.delivers then s.wire ++ [BitVec.ofNat 8 (s.acc.toNat % 64 + 0x20)] else s.wire,
        ph := 8 }
    ∧ (s.ph = 6 → txValid s = true ∧ txData s = 0x20)
    ∧ (s.ph = 7 → txValid s = true ∧ txData s = BitVec.ofNat 8 (s.acc.toNat % 64 + 0x20))

/-- 41_group_encoder.md rule R87: CR offers 0x0D; at the accept it sends it and goes to LF of the next group, or after
group 4 to ETX with GI = 0. -/
def Obligations.CrAtTheAccept : Prop :=
  ∀ s : State, s.input.txReady = true → s.input.rst = false → s.gi.toNat ≤ 4 →
    exec .cr s = .next { s with
      tx := s.tx ++ [0x0D], wire := if s.input.delivers then s.wire ++ [0x0D] else s.wire,
      gi := if s.gi = 4 then 0 else BitVec.ofNat 3 (s.gi.toNat + 1), ph := if s.gi = 4 then 9 else 2 }
    ∧ (s.ph = 8 → txValid s = true ∧ txData s = 0x0D)

/-- CR completes at the accept in every state. The model's choice (log entry 13): at GI in 5..7, which no run reaches,
GI grows by 1 in its 3 bits and LF is next. -/
def Obligations.CrCompletesAtAnyIndex : Prop :=
  ∀ s : State, s.input.txReady = true → s.input.rst = false →
    exec .cr s = .next { s with
      tx := s.tx ++ [0x0D], wire := if s.input.delivers then s.wire ++ [0x0D] else s.wire,
      gi := if s.gi = 4 then 0 else s.gi + 1, ph := if s.gi = 4 then 9 else 2 }

/-- 42_framer.md rule R105: ADV is `(CNT, o) <- adv(CNT); OVF <- OVF or o`, all in one step and without an accept, and
goes to IDLE: every counter at `10^width - 1` becomes 0 and sets its flag, every other one grows by 1, that is plus 1
modulo 10^width (rule R100); flags already set stay set and nothing else changes. -/
def Obligations.AdvAdvancesAllCountersAtOnce : Prop :=
  ∀ s : State, CountersInRange s.cnt → ∃ t : State,
    exec .adv s = .next t
    ∧ t = { s with cnt := (adv s.cnt).1, ovf := s.ovf ||| (adv s.cnt).2, ph := 0 }
    ∧ (s.ph = 10 → txValid s = false)
    ∧ ∀ g : Grp,
        (t.cnt.get g).toNat = ((s.cnt.get g).toNat + 1) % 10 ^ (Config.desc g).width
        ∧ ((s.cnt.get g).toNat = 10 ^ (Config.desc g).width - 1 → t.cnt.get g = 0 ∧ t.ovf.getLsbD g.val = true)
        ∧ ((s.cnt.get g).toNat ≠ 10 ^ (Config.desc g).width - 1 →
          (t.cnt.get g).toNat = (s.cnt.get g).toNat + 1 ∧ t.ovf.getLsbD g.val = s.ovf.getLsbD g.val)

/-- ADV completes in every state. The model's choice (log entry 7): a counter above its capacity, which no run reaches,
grows by 1 in its 32 bits, as the pseudocode of 42_framer.md rule R105 reads. -/
def Obligations.AdvCompletesAtAnyCounters : Prop :=
  ∀ s : State, ∃ t : State,
    exec .adv s = .next t
    ∧ t = { s with cnt := t.cnt, ovf := t.ovf, ph := 0 }
    ∧ ∀ g : Grp,
        ((s.cnt.get g).toNat = 10 ^ (Config.desc g).width - 1 →
          t.cnt.get g = 0 ∧ t.ovf.getLsbD g.val = true)
        ∧ ((s.cnt.get g).toNat ≠ 10 ^ (Config.desc g).width - 1 →
          t.cnt.get g = s.cnt.get g + 1 ∧ t.ovf.getLsbD g.val = s.ovf.getLsbD g.val)

/-- 30_encoding.md rule R54, 93_implementation_defined.md U1: the reserved phase codes have no behaviour. Of the two
treatments U1 offers the model takes the fault: both operations stop on every path, and so does a step without RESET
at such a code, with no byte offered. -/
def Obligations.ReservedPhaseCodesStop : Prop :=
  ∀ s : State,
    exec .phRsv11 s = .fault (.reservedPhase 11)
    ∧ (∀ code : PhCode, exec (.phRsv12to15 code) s = .fault (.reservedPhase code))
    ∧ (11 ≤ s.ph.toNat → s.input.rst = false → step s = .fault (.reservedPhase s.ph) ∧ txValid s = false)

/-! ## Pin events, the clock edge and the two waits -/

/-- 42_framer.md rule R101: a TICK waits in TICKQ, or with TICKQ full sets TLOST; it changes nothing else. TICKQ_MAX
is at least 1. -/
def Obligations.TickQueuesOrIsLost : Prop :=
  ∀ s : State,
    1 ≤ Config.tickqMax
    ∧ (s.tickq < Config.tickqMax → exec .tick s = .next { s with tickq := s.tickq + 1 })
    ∧ (Config.tickqMax ≤ s.tickq → exec .tick s = .next { s with tlost := true })

/-- 20_memory.md rule R33: in an emitting phase ACCEPT appends exactly the byte on offer and performs that phase's
operation, the very one the phase's own operation performs when the transport is ready; counters, tick queue and
flags do not take part. In any other phase no byte is offered. That the operation ACCEPT, which the spec says cannot
occur there, then changes nothing is the model's choice (log entry 8; for the reserved codes also log entry 10). -/
def Obligations.AcceptPerformsTheEmittingPhase : Prop :=
  ∀ s : State,
    (1 ≤ s.ph.toNat → s.ph.toNat ≤ 9 → ∃ (b : Byte) (t : State),
      txValid s = true ∧ offered s = some b ∧ txData s = b
      ∧ exec .accept s = .next t
      ∧ t = { s with
          tx := s.tx ++ [b], wire := if s.input.delivers then s.wire ++ [b] else s.wire,
          acc := t.acc, ph := t.ph, gi := t.gi, bi := t.bi }
      ∧ (s.input.txReady = true → s.input.rst = false → exec (fetch s) s = exec .accept s))
    ∧ (s.ph = 0 ∨ 10 ≤ s.ph.toNat → txValid s = false ∧ exec .accept s = .next s)

/-- 41_group_encoder.md section 2 and 20_memory.md rule R33: until the accept an emitting phase waits and nothing is
changed. -/
def Obligations.EmittingPhasesWaitForTheAccept : Prop :=
  ∀ (s : State) (i : Instr),
    i ∈ [.stx, .lf, .name, .sp1, .dig, .sp2, .chk, .cr, .etx] →
    s.input.txReady = false ∨ s.input.rst = true → exec i s = .next s

/-- 60_exceptions.md rules R134 and R136, 70_reset_and_hazards.md rule R147: the block's two waits. At an edge
without RESET and TICK, an offered byte that is not taken stays offered with all state kept, and IDLE with no tick
pending keeps all state; only the edge itself passes. -/
def Obligations.BothWaitsKeepTheState : Prop :=
  ∀ s : State, s.input.rst = false → s.input.tick = false →
    (txValid s = true → s.input.txReady = false →
      ∃ t, step s = .next t ∧ t = { s with inputs := t.inputs, edge := t.edge }
        ∧ txValid t = true ∧ txData t = txData s)
    ∧ (s.ph = 0 → s.tickq = 0 →
      ∃ t, step s = .next t ∧ t = { s with inputs := t.inputs, edge := t.edge } ∧ txValid t = false)

/-- 00_scope.md rule R4 and 30_encoding.md rule R51: when PH decodes to the well-formed operation i, a step without
RESET is exec of i, then the TICK if the pin asks for one (the order of 60_exceptions.md rule R126 (2)), then the
passing of the edge. That one step is one clock edge is the model's reading (log entries 5 and 12), and that at a
reserved code the step faults, with no TICK taken, is its choice (log entry 10). -/
def Obligations.StepRunsTheDecodedOperation : Prop :=
  ∀ (s : State) (i : Instr) (rest : List Byte),
    decode .ph4 [s.ph.setWidth 8] = .ok i rest → i.wf = true → s.input.rst = false →
    (∀ t, exec i s = .next t → s.input.tick = false →
      step s = .next { t with inputs := t.inputs.tail, edge := t.edge + 1 })
    ∧ (∀ t u, exec i s = .next t → s.input.tick = true → exec .tick t = .next u →
      step s = .next { u with inputs := u.inputs.tail, edge := u.edge + 1 })
    ∧ (∀ e, exec i s = .fault e → step s = .fault e)

/-- 30_encoding.md rule R55 and 60_exceptions.md rule R126: the bits of the pin vector (rst, tick, tx_valid,
tx_ready), and that a clock edge performs exactly its events: RESET alone, or in an emitting phase the ACCEPT and then
the TICK. In IDLE and ADV, which need no accept, the phase's operation comes first. -/
def Obligations.AnEdgePerformsTheEventsOfItsPins : Prop :=
  ∀ s : State,
    ((pinVector s).getLsbD 3 = s.input.rst ∧ (pinVector s).getLsbD 2 = s.input.tick
      ∧ (pinVector s).getLsbD 1 = txValid s ∧ (pinVector s).getLsbD 0 = s.input.txReady)
    ∧ (s.input.rst = true → pinEvents (pinVector s) = [.reset])
    ∧ (s.input.rst = true ∨ 1 ≤ s.ph.toNat ∧ s.ph.toNat ≤ 9 → ∃ t : State,
        runOps (pinEvents (pinVector s)) s = .next t
        ∧ step s = .next { t with inputs := t.inputs.tail, edge := t.edge + 1 })
    ∧ (s.input.rst = false → s.ph = 0 ∨ s.ph = 10 → ∃ u t : State,
        exec (fetch s) s = .next u
        ∧ pinEvents (pinVector s) = (if s.input.tick then [.tick] else [])
        ∧ runOps (pinEvents (pinVector s)) u = .next t
        ∧ step s = .next { t with inputs := t.inputs.tail, edge := t.edge + 1 })

/-- 60_exceptions.md rule R126 (2): a TICK at the edge at which IDLE takes a pending one comes after it, so with
TICKQ full it is kept and TLOST is not set. -/
def Obligations.TickAtTheIdleEdgeIsKept : Prop :=
  ∀ s : State, s.ph = 0 → s.tickq = Config.tickqMax → s.input.rst = false → s.input.tick = true →
    ∃ t, step s = .next t ∧ t.ph = 1 ∧ t.tickq = Config.tickqMax ∧ t.tlost = s.tlost

/-- 20_memory.md rule R44 and 42_framer.md rule R101: the `tick` pin changes only TICKQ and TLOST. A step with it is
the step without it, except for these two. -/
def Obligations.TickPinTouchesOnlyTheQueue : Prop :=
  ∀ (s t : State) (e : EdgeInput) (rest : List EdgeInput), e.rst = false →
    step { s with inputs := { e with tick := false } :: rest } = .next t →
    step { s with inputs := { e with tick := true } :: rest } = .next
      { t with
        tickq := if t.tickq < Config.tickqMax then t.tickq + 1 else t.tickq
        tlost := if t.tickq < Config.tickqMax then t.tlost else true }

/-- 10_state.md rule R19: every field of the STATUS word. -/
def Obligations.StatusWordLayout : Prop :=
  ∀ s : State,
    (status s).extractLsb' 0 4 = s.ph
    ∧ (status s).extractLsb' 4 3 = s.gi
    ∧ (status s).getLsbD 7 = decide (s.ph ≠ 0)
    ∧ (status s).extractLsb' 8 5 = s.ovf
    ∧ (status s).getLsbD 13 = s.tlost
    ∧ (status s).getLsbD 14 = decide (0 < s.tickq)
    ∧ (status s).getLsbD 15 = false

/-! ## Rules of the whole machine -/

/-- 10_state.md rule R18 and 60_exceptions.md rule R135: without RESET a set flag stays set; OVF changes only in ADV
and TLOST only by a TICK that finds the queue full. -/
def Obligations.FlagsStayUntilReset : Prop :=
  ∀ s t : State, s.input.rst = false → step s = .next t →
    (∀ g : Grp, s.ovf.getLsbD g.val = true → t.ovf.getLsbD g.val = true)
    ∧ (s.tlost = true → t.tlost = true)
    ∧ (s.ph ≠ phAdv → t.ovf = s.ovf)
    ∧ (s.input.tick = false ∨ s.tickq < Config.tickqMax → t.tlost = s.tlost)

/-- 10_state.md rule R18 and 60_exceptions.md rule R135: OVF and TLOST never influence anything. Two states that
agree but for these flags offer the same byte, if any, and step alike, to states that agree but for them. -/
def Obligations.FlagsInfluenceNothing : Prop :=
  ∀ s s' t : State, AgreeButFlags s s' → step s = .next t →
    ∃ t', step s' = .next t' ∧ AgreeButFlags t t' ∧ txValid s' = txValid s
      ∧ (txValid s = true → txData s' = txData s)

/-- 60_exceptions.md rule R123: what the transport delivers is invisible to the block. Two states that agree but for
deliveries and the wire step alike, to states that agree but for them. -/
def Obligations.DeliveryIsInvisibleToTheBlock : Prop :=
  ∀ s s' t : State, AgreeButDelivery s s' → step s = .next t →
    ∃ t', step s' = .next t' ∧ AgreeButDelivery t t'

/-- 60_exceptions.md rule R123: the wire carries a subsequence of TX; every step keeps that. -/
def Obligations.WireStaysASubsequenceOfTx : Prop :=
  ∀ s t : State, WireOk s → step s = .next t → WireOk t

/-- 10_state.md rule R13, 20_memory.md rule R41 and 10_state.md rule R27: without RESET the counters change only in
ADV, so all bytes of one Frame come from one counter state. -/
def Obligations.CountersChangeOnlyInAdv : Prop :=
  ∀ s t : State, s.input.rst = false → s.ph ≠ phAdv → step s = .next t → t.cnt = s.cnt

/-- 20_memory.md rules R33 and R34: TX is append-only. It grows by exactly the byte on `tx_data` at an accept, and at
every other edge, a RESET edge included, it stays. -/
def Obligations.StreamGrowsOnlyByAcceptedBytes : Prop :=
  ∀ s t : State, step s = .next t →
    (txValid s = true ∧ s.input.txReady = true ∧ s.input.rst = false → t.tx = s.tx ++ [txData s])
    ∧ (txValid s = false ∨ s.input.txReady = false ∨ s.input.rst = true → t.tx = s.tx)

/-- 42_framer.md rule R113: a frame is never started while another is in progress. Without RESET, STX is entered only
from IDLE with a tick pending, and IDLE only from ADV. -/
def Obligations.FramesNeverOverlap : Prop :=
  ∀ s t : State, s.input.rst = false → step s = .next t →
    (t.ph = phStx → s.ph = phStx ∨ (s.ph = phIdle ∧ 0 < s.tickq))
    ∧ (t.ph = phIdle → s.ph = phAdv ∨ (s.ph = phIdle ∧ s.tickq = 0))

/-- 20_memory.md rule R36 and 30_encoding.md rule R56: in a state that meets the block's invariant every byte on
offer is below 0x60, so bit 7 of `tx_data` is 0. -/
def Obligations.OfferedBytesFitSevenBits : Prop :=
  ∀ s : State, BlockOk s → txValid s = true →
    ∃ b, offered s = some b ∧ b.toNat < 0x60 ∧ (txData s).getLsbD 7 = false

/-- 60_exceptions.md rule R120: no operation can fault. From a position that meets 10_state.md rule R15 every step
gives a next state. -/
def Obligations.NoStepFaultsAtALegalPosition : Prop :=
  ∀ s : State, PositionOk s → Safe s ∧ ∃ t, step s = .next t

/-- 42_framer.md rule R107 and 90_conflicts.md C5: after n advances field i shows `(INIT[i] + n) mod 10^width_i`. -/
def Obligations.CounterAdvanceLaw : Prop :=
  ∀ (n : Nat) (g : Grp),
    ((advances Config.init n).get g).toNat
      = ((Config.init.get g).toNat + n) % 10 ^ (Config.desc g).width

/-- 41_group_encoder.md rule R88: from (LF, g, 0) with any ACC, `nlen + width + 5` accepts append exactly
`group(DESC[g].name, CNT[g], DESC[g].width)`, leave the sum of its checksummable substring in ACC and end at the
next group's LF, or at ETX after group 4; counters, tick queue and flags stay. -/
def Obligations.AcceptsEmitAWholeGroup : Prop :=
  ∀ (s : State) (g : Grp), s.ph = phLf → s.gi.toNat = g.val → s.bi = 0 →
    (s.cnt.get g).toNat < 10 ^ (Config.desc g).width →
    ∃ (cs gr : List Byte) (t : State),
      csub (Config.desc g).name (s.cnt.get g).toNat (Config.desc g).width = some cs
      ∧ group (Config.desc g).name (s.cnt.get g).toNat (Config.desc g).width = some gr
      ∧ runOps (List.replicate ((Config.desc g).nlen + (Config.desc g).width + 5) .accept) s = .next t
      ∧ t = { s with
          tx := s.tx ++ gr, wire := t.wire, acc := BitVec.ofNat 16 (byteSum cs),
          ph := if g = 4 then phEtx else phLf, gi := if g = 4 then 0 else s.gi + 1 }

/-- 42_framer.md rule R106 and 30_encoding.md rule R59: from (IDLE, 0, 0) with a tick pending and the transport
ready, the next 85 sequencer operations are `FRAME`; they append exactly `frame(c)`, advance the counters by `adv`,
and return to (IDLE, 0, 0). Stalls and TICKs between them are covered by EmittingPhasesWaitForTheAccept and
TickPinTouchesOnlyTheQueue. -/
def Obligations.SequencerEmitsAWholeFrame : Prop :=
  ∀ s : State, s.ph = phIdle → s.gi = 0 → s.bi = 0 → 0 < s.tickq → CountersInRange s.cnt →
    s.input.txReady = true → s.input.rst = false →
    ∃ (f cs : List Byte) (t : State),
      frame s.cnt = some f
      ∧ csub (Config.desc 4).name s.cnt.papp.toNat (Config.desc 4).width = some cs
      ∧ runSequencer 85 s = (frameOps, .next t)
      ∧ t = { s with
          tx := s.tx ++ f, wire := t.wire, cnt := (adv s.cnt).1, ovf := s.ovf ||| (adv s.cnt).2,
          tickq := s.tickq - 1, acc := BitVec.ofNat 16 (byteSum cs) }

/-! ## Invariants of every step -/

/-- 10_state.md rules R11, R15, R16 and R17 hold right after reset. -/
def Obligations.BlockInvariantHoldsAtReset : Prop := BlockOk State.reset

/-- 10_state.md rules R11, R15, R16 and R17: the position stays legal, every counter stays below 10^width, the tick
queue stays within TICKQ_MAX, and ACC holds the sum of the summed bytes of the group, at every step, whatever the
environment does at it. -/
def Obligations.BlockInvariantIsKept : Prop :=
  ∀ s t : State, BlockOk s → step s = .next t → BlockOk t

/-- 42_framer.md rules R107 and R108 hold right after reset, in the state the machine starts from and after a RESET of
any state: nothing has been sent after the bytes that TX held at the RESET. -/
def Obligations.StreamInvariantHoldsAtReset : Prop :=
  StreamOk State.reset.tx State.reset
  ∧ ∀ s t : State, exec .reset s = .next t → StreamOk s.tx t

/-- 42_framer.md rules R107 and R108: whatever the environment does (stalls, ticks), the bytes sent after `before`, what
TX held at the last RESET, are whole frames of the successive counter values and then the first bytes of the next one,
as many as the position says, and OVF records exactly the counters that have wrapped. A step without RESET keeps this
for the same `before`; a RESET edge, in any state, makes `before` what TX then holds. -/
def Obligations.StreamInvariantIsKept : Prop :=
  (∀ (before : List Byte) (s t : State), BlockOk s → StreamOk before s → s.input.rst = false →
    step s = .next t → StreamOk before t)
  ∧ ∀ s t : State, s.input.rst = true → step s = .next t → StreamOk s.tx t

/-! ## Encoding -/

/-- 30_encoding.md rules R51, R53, R54 and R55: decoding the encoding of a well-formed operation gives it back, with
the bytes after it. -/
def Obligations.DecodeGivesBackEveryEncodedOperation : Prop :=
  ∀ (i : Instr) (rest : List Byte), i.wf = true → decode i.format (encode i ++ rest) = .ok i rest

/-- 30_encoding.md rules R51, R53 and R54: what decodes as a phase code or an engine code is well formed, of that
format, and encodes back to the bytes it was read from, so no two codes mean the same operation. -/
def Obligations.DecodedCodesEncodeBack : Prop :=
  ∀ (f : Format) (bytes rest : List Byte) (i : Instr), f ≠ .pin → decode f bytes = .ok i rest →
    i.wf = true ∧ i.format = f ∧ encode i ++ rest = bytes

/-- 30_encoding.md rules R51, R53, R54 and R55: one code of each kind, written out from the spec's tables. -/
def Obligations.CodesOfTheTables : Prop :=
  decode .ph4 [0b0000] = .ok .idle [] ∧ decode .ph4 [0b0101] = .ok .dig [] ∧ decode .ph4 [0b1010] = .ok .adv []
  ∧ decode .ph4 [0b1011] = .ok .phRsv11 [] ∧ decode .ph4 [0b1110] = .ok (.phRsv12to15 14) []
  ∧ decode .ck2 [0b01] = .ok .ckClr [] ∧ decode .ck2 [0b10, 0x42] = .ok (.ckAdd 0x42) []
  ∧ decode .pin [0b1011] = .ok .reset [] ∧ decode .pin [0b0110] = .ok .tick [] ∧ decode .pin [0b0011] = .ok .accept []
  ∧ pinEvents 0b0111 = [.accept, .tick]
end

