-- ==== Sys2Proof/Laws/State.lean ====
section
/-! SUPPORT. One lemma per field per update of State, so that no proof unfolds a record update. -/

namespace Sys2Proof.Machine
variable (s : State)

/-! `sendByte` -/
@[simp] theorem sendByte_cnt (b : Byte) : (sendByte b s).cnt = s.cnt := rfl
@[simp] theorem sendByte_acc (b : Byte) : (sendByte b s).acc = s.acc := rfl
@[simp] theorem sendByte_ph (b : Byte) : (sendByte b s).ph = s.ph := rfl
@[simp] theorem sendByte_gi (b : Byte) : (sendByte b s).gi = s.gi := rfl
@[simp] theorem sendByte_bi (b : Byte) : (sendByte b s).bi = s.bi := rfl
@[simp] theorem sendByte_tickq (b : Byte) : (sendByte b s).tickq = s.tickq := rfl
@[simp] theorem sendByte_ovf (b : Byte) : (sendByte b s).ovf = s.ovf := rfl
@[simp] theorem sendByte_tlost (b : Byte) : (sendByte b s).tlost = s.tlost := rfl
@[simp] theorem sendByte_tx (b : Byte) : (sendByte b s).tx = s.tx ++ [b] := rfl
@[simp] theorem sendByte_wire (b : Byte) : (sendByte b s).wire = if s.input.delivers then s.wire ++ [b] else s.wire := rfl
@[simp] theorem sendByte_inputs (b : Byte) : (sendByte b s).inputs = s.inputs := rfl
@[simp] theorem sendByte_edge (b : Byte) : (sendByte b s).edge = s.edge := rfl
@[simp] theorem sendByte_input (b : Byte) : (sendByte b s).input = s.input := rfl

/-! `accHold` -/
@[simp] theorem accHold_cnt : (accHold s).cnt = s.cnt := rfl
@[simp] theorem accHold_acc : (accHold s).acc = s.acc := rfl
@[simp] theorem accHold_ph : (accHold s).ph = s.ph := rfl
@[simp] theorem accHold_gi : (accHold s).gi = s.gi := rfl
@[simp] theorem accHold_bi : (accHold s).bi = s.bi := rfl
@[simp] theorem accHold_tickq : (accHold s).tickq = s.tickq := rfl
@[simp] theorem accHold_ovf : (accHold s).ovf = s.ovf := rfl
@[simp] theorem accHold_tlost : (accHold s).tlost = s.tlost := rfl
@[simp] theorem accHold_tx : (accHold s).tx = s.tx := rfl
@[simp] theorem accHold_wire : (accHold s).wire = s.wire := rfl
@[simp] theorem accHold_inputs : (accHold s).inputs = s.inputs := rfl
@[simp] theorem accHold_edge : (accHold s).edge = s.edge := rfl
@[simp] theorem accHold_input : (accHold s).input = s.input := rfl

/-! `accClear` -/
@[simp] theorem accClear_cnt : (accClear s).cnt = s.cnt := rfl
@[simp] theorem accClear_acc : (accClear s).acc = 0 := rfl
@[simp] theorem accClear_ph : (accClear s).ph = s.ph := rfl
@[simp] theorem accClear_gi : (accClear s).gi = s.gi := rfl
@[simp] theorem accClear_bi : (accClear s).bi = s.bi := rfl
@[simp] theorem accClear_tickq : (accClear s).tickq = s.tickq := rfl
@[simp] theorem accClear_ovf : (accClear s).ovf = s.ovf := rfl
@[simp] theorem accClear_tlost : (accClear s).tlost = s.tlost := rfl
@[simp] theorem accClear_tx : (accClear s).tx = s.tx := rfl
@[simp] theorem accClear_wire : (accClear s).wire = s.wire := rfl
@[simp] theorem accClear_inputs : (accClear s).inputs = s.inputs := rfl
@[simp] theorem accClear_edge : (accClear s).edge = s.edge := rfl
@[simp] theorem accClear_input : (accClear s).input = s.input := rfl

/-! `accAdd` -/
@[simp] theorem accAdd_cnt (b : Byte) : (accAdd b s).cnt = s.cnt := rfl
@[simp] theorem accAdd_acc (b : Byte) : (accAdd b s).acc = s.acc + zext16 b := rfl
@[simp] theorem accAdd_ph (b : Byte) : (accAdd b s).ph = s.ph := rfl
@[simp] theorem accAdd_gi (b : Byte) : (accAdd b s).gi = s.gi := rfl
@[simp] theorem accAdd_bi (b : Byte) : (accAdd b s).bi = s.bi := rfl
@[simp] theorem accAdd_tickq (b : Byte) : (accAdd b s).tickq = s.tickq := rfl
@[simp] theorem accAdd_ovf (b : Byte) : (accAdd b s).ovf = s.ovf := rfl
@[simp] theorem accAdd_tlost (b : Byte) : (accAdd b s).tlost = s.tlost := rfl
@[simp] theorem accAdd_tx (b : Byte) : (accAdd b s).tx = s.tx := rfl
@[simp] theorem accAdd_wire (b : Byte) : (accAdd b s).wire = s.wire := rfl
@[simp] theorem accAdd_inputs (b : Byte) : (accAdd b s).inputs = s.inputs := rfl
@[simp] theorem accAdd_edge (b : Byte) : (accAdd b s).edge = s.edge := rfl
@[simp] theorem accAdd_input (b : Byte) : (accAdd b s).input = s.input := rfl

/-! `goto` -/
@[simp] theorem goto_cnt (p : PhCode) : (goto p s).cnt = s.cnt := rfl
@[simp] theorem goto_acc (p : PhCode) : (goto p s).acc = s.acc := rfl
@[simp] theorem goto_ph (p : PhCode) : (goto p s).ph = p := rfl
@[simp] theorem goto_gi (p : PhCode) : (goto p s).gi = s.gi := rfl
@[simp] theorem goto_bi (p : PhCode) : (goto p s).bi = s.bi := rfl
@[simp] theorem goto_tickq (p : PhCode) : (goto p s).tickq = s.tickq := rfl
@[simp] theorem goto_ovf (p : PhCode) : (goto p s).ovf = s.ovf := rfl
@[simp] theorem goto_tlost (p : PhCode) : (goto p s).tlost = s.tlost := rfl
@[simp] theorem goto_tx (p : PhCode) : (goto p s).tx = s.tx := rfl
@[simp] theorem goto_wire (p : PhCode) : (goto p s).wire = s.wire := rfl
@[simp] theorem goto_inputs (p : PhCode) : (goto p s).inputs = s.inputs := rfl
@[simp] theorem goto_edge (p : PhCode) : (goto p s).edge = s.edge := rfl
@[simp] theorem goto_input (p : PhCode) : (goto p s).input = s.input := rfl

/-! `nextInString` -/
@[simp] theorem nextInString_cnt (n : Nat) (p : PhCode) : (nextInString n p s).cnt = s.cnt := by simp only [nextInString]; split <;> rfl
@[simp] theorem nextInString_acc (n : Nat) (p : PhCode) : (nextInString n p s).acc = s.acc := by simp only [nextInString]; split <;> rfl
@[simp] theorem nextInString_ph (n : Nat) (p : PhCode) : (nextInString n p s).ph = if s.bi.toNat + 1 = n then p else s.ph := by simp only [nextInString]; split <;> rfl
@[simp] theorem nextInString_gi (n : Nat) (p : PhCode) : (nextInString n p s).gi = s.gi := by simp only [nextInString]; split <;> rfl
@[simp] theorem nextInString_bi (n : Nat) (p : PhCode) : (nextInString n p s).bi = if s.bi.toNat + 1 = n then 0 else s.bi + 1 := by simp only [nextInString]; split <;> rfl
@[simp] theorem nextInString_tickq (n : Nat) (p : PhCode) : (nextInString n p s).tickq = s.tickq := by simp only [nextInString]; split <;> rfl
@[simp] theorem nextInString_ovf (n : Nat) (p : PhCode) : (nextInString n p s).ovf = s.ovf := by simp only [nextInString]; split <;> rfl
@[simp] theorem nextInString_tlost (n : Nat) (p : PhCode) : (nextInString n p s).tlost = s.tlost := by simp only [nextInString]; split <;> rfl
@[simp] theorem nextInString_tx (n : Nat) (p : PhCode) : (nextInString n p s).tx = s.tx := by simp only [nextInString]; split <;> rfl
@[simp] theorem nextInString_wire (n : Nat) (p : PhCode) : (nextInString n p s).wire = s.wire := by simp only [nextInString]; split <;> rfl
@[simp] theorem nextInString_inputs (n : Nat) (p : PhCode) : (nextInString n p s).inputs = s.inputs := by simp only [nextInString]; split <;> rfl
@[simp] theorem nextInString_edge (n : Nat) (p : PhCode) : (nextInString n p s).edge = s.edge := by simp only [nextInString]; split <;> rfl
@[simp] theorem nextInString_input (n : Nat) (p : PhCode) : (nextInString n p s).input = s.input := by simp only [nextInString, State.input]; split <;> rfl

/-! `nextGroup` -/
@[simp] theorem nextGroup_cnt : (nextGroup s).cnt = s.cnt := by simp only [nextGroup]; split <;> rfl
@[simp] theorem nextGroup_acc : (nextGroup s).acc = s.acc := by simp only [nextGroup]; split <;> rfl
@[simp] theorem nextGroup_ph : (nextGroup s).ph = if s.gi = 4 then phEtx else phLf := by simp only [nextGroup]; split <;> rfl
@[simp] theorem nextGroup_gi : (nextGroup s).gi = if s.gi = 4 then 0 else s.gi + 1 := by simp only [nextGroup]; split <;> rfl
@[simp] theorem nextGroup_bi : (nextGroup s).bi = s.bi := by simp only [nextGroup]; split <;> rfl
@[simp] theorem nextGroup_tickq : (nextGroup s).tickq = s.tickq := by simp only [nextGroup]; split <;> rfl
@[simp] theorem nextGroup_ovf : (nextGroup s).ovf = s.ovf := by simp only [nextGroup]; split <;> rfl
@[simp] theorem nextGroup_tlost : (nextGroup s).tlost = s.tlost := by simp only [nextGroup]; split <;> rfl
@[simp] theorem nextGroup_tx : (nextGroup s).tx = s.tx := by simp only [nextGroup]; split <;> rfl
@[simp] theorem nextGroup_wire : (nextGroup s).wire = s.wire := by simp only [nextGroup]; split <;> rfl
@[simp] theorem nextGroup_inputs : (nextGroup s).inputs = s.inputs := by simp only [nextGroup]; split <;> rfl
@[simp] theorem nextGroup_edge : (nextGroup s).edge = s.edge := by simp only [nextGroup]; split <;> rfl
@[simp] theorem nextGroup_input : (nextGroup s).input = s.input := by simp only [nextGroup, State.input]; split <;> rfl

/-! `queueTick` -/
@[simp] theorem queueTick_cnt : (queueTick s).cnt = s.cnt := by simp only [queueTick]; split <;> rfl
@[simp] theorem queueTick_acc : (queueTick s).acc = s.acc := by simp only [queueTick]; split <;> rfl
@[simp] theorem queueTick_ph : (queueTick s).ph = s.ph := by simp only [queueTick]; split <;> rfl
@[simp] theorem queueTick_gi : (queueTick s).gi = s.gi := by simp only [queueTick]; split <;> rfl
@[simp] theorem queueTick_bi : (queueTick s).bi = s.bi := by simp only [queueTick]; split <;> rfl
@[simp] theorem queueTick_tickq : (queueTick s).tickq = if s.tickq < Config.tickqMax then s.tickq + 1 else s.tickq := by simp only [queueTick]; split <;> rfl
@[simp] theorem queueTick_ovf : (queueTick s).ovf = s.ovf := by simp only [queueTick]; split <;> rfl
@[simp] theorem queueTick_tlost : (queueTick s).tlost = if s.tickq < Config.tickqMax then s.tlost else true := by simp only [queueTick]; split <;> rfl
@[simp] theorem queueTick_tx : (queueTick s).tx = s.tx := by simp only [queueTick]; split <;> rfl
@[simp] theorem queueTick_wire : (queueTick s).wire = s.wire := by simp only [queueTick]; split <;> rfl
@[simp] theorem queueTick_inputs : (queueTick s).inputs = s.inputs := by simp only [queueTick]; split <;> rfl
@[simp] theorem queueTick_edge : (queueTick s).edge = s.edge := by simp only [queueTick]; split <;> rfl
@[simp] theorem queueTick_input : (queueTick s).input = s.input := by simp only [queueTick, State.input]; split <;> rfl

/-! `takeTick` -/
@[simp] theorem takeTick_cnt : (takeTick s).cnt = s.cnt := rfl
@[simp] theorem takeTick_acc : (takeTick s).acc = s.acc := rfl
@[simp] theorem takeTick_ph : (takeTick s).ph = phStx := rfl
@[simp] theorem takeTick_gi : (takeTick s).gi = 0 := rfl
@[simp] theorem takeTick_bi : (takeTick s).bi = 0 := rfl
@[simp] theorem takeTick_tickq : (takeTick s).tickq = s.tickq - 1 := rfl
@[simp] theorem takeTick_ovf : (takeTick s).ovf = s.ovf := rfl
@[simp] theorem takeTick_tlost : (takeTick s).tlost = s.tlost := rfl
@[simp] theorem takeTick_tx : (takeTick s).tx = s.tx := rfl
@[simp] theorem takeTick_wire : (takeTick s).wire = s.wire := rfl
@[simp] theorem takeTick_inputs : (takeTick s).inputs = s.inputs := rfl
@[simp] theorem takeTick_edge : (takeTick s).edge = s.edge := rfl
@[simp] theorem takeTick_input : (takeTick s).input = s.input := rfl

/-! `returnToIdle` -/
@[simp] theorem returnToIdle_cnt : (returnToIdle s).cnt = s.cnt := rfl
@[simp] theorem returnToIdle_acc : (returnToIdle s).acc = s.acc := rfl
@[simp] theorem returnToIdle_ph : (returnToIdle s).ph = phIdle := rfl
@[simp] theorem returnToIdle_gi : (returnToIdle s).gi = s.gi := rfl
@[simp] theorem returnToIdle_bi : (returnToIdle s).bi = s.bi := rfl
@[simp] theorem returnToIdle_tickq : (returnToIdle s).tickq = s.tickq := rfl
@[simp] theorem returnToIdle_ovf : (returnToIdle s).ovf = s.ovf := rfl
@[simp] theorem returnToIdle_tlost : (returnToIdle s).tlost = s.tlost := rfl
@[simp] theorem returnToIdle_tx : (returnToIdle s).tx = s.tx := rfl
@[simp] theorem returnToIdle_wire : (returnToIdle s).wire = s.wire := rfl
@[simp] theorem returnToIdle_inputs : (returnToIdle s).inputs = s.inputs := rfl
@[simp] theorem returnToIdle_edge : (returnToIdle s).edge = s.edge := rfl
@[simp] theorem returnToIdle_input : (returnToIdle s).input = s.input := rfl

/-! `advanceCounters` -/
@[simp] theorem advanceCounters_cnt : (advanceCounters s).cnt = bumpAll s.cnt := rfl
@[simp] theorem advanceCounters_acc : (advanceCounters s).acc = s.acc := rfl
@[simp] theorem advanceCounters_ph : (advanceCounters s).ph = s.ph := rfl
@[simp] theorem advanceCounters_gi : (advanceCounters s).gi = s.gi := rfl
@[simp] theorem advanceCounters_bi : (advanceCounters s).bi = s.bi := rfl
@[simp] theorem advanceCounters_tickq : (advanceCounters s).tickq = s.tickq := rfl
@[simp] theorem advanceCounters_ovf : (advanceCounters s).ovf = s.ovf ||| wraps s.cnt := rfl
@[simp] theorem advanceCounters_tlost : (advanceCounters s).tlost = s.tlost := rfl
@[simp] theorem advanceCounters_tx : (advanceCounters s).tx = s.tx := rfl
@[simp] theorem advanceCounters_wire : (advanceCounters s).wire = s.wire := rfl
@[simp] theorem advanceCounters_inputs : (advanceCounters s).inputs = s.inputs := rfl
@[simp] theorem advanceCounters_edge : (advanceCounters s).edge = s.edge := rfl
@[simp] theorem advanceCounters_input : (advanceCounters s).input = s.input := rfl

/-! `resetBlock` -/
@[simp] theorem resetBlock_cnt : (resetBlock s).cnt = Config.init := rfl
@[simp] theorem resetBlock_acc : (resetBlock s).acc = 0 := rfl
@[simp] theorem resetBlock_ph : (resetBlock s).ph = phIdle := rfl
@[simp] theorem resetBlock_gi : (resetBlock s).gi = 0 := rfl
@[simp] theorem resetBlock_bi : (resetBlock s).bi = 0 := rfl
@[simp] theorem resetBlock_tickq : (resetBlock s).tickq = 0 := rfl
@[simp] theorem resetBlock_ovf : (resetBlock s).ovf = 0 := rfl
@[simp] theorem resetBlock_tlost : (resetBlock s).tlost = false := rfl
@[simp] theorem resetBlock_tx : (resetBlock s).tx = s.tx := rfl
@[simp] theorem resetBlock_wire : (resetBlock s).wire = s.wire := rfl
@[simp] theorem resetBlock_inputs : (resetBlock s).inputs = s.inputs := rfl
@[simp] theorem resetBlock_edge : (resetBlock s).edge = s.edge := rfl
@[simp] theorem resetBlock_input : (resetBlock s).input = s.input := rfl

/-! `passEdge` -/
@[simp] theorem passEdge_cnt : (passEdge s).cnt = s.cnt := rfl
@[simp] theorem passEdge_acc : (passEdge s).acc = s.acc := rfl
@[simp] theorem passEdge_ph : (passEdge s).ph = s.ph := rfl
@[simp] theorem passEdge_gi : (passEdge s).gi = s.gi := rfl
@[simp] theorem passEdge_bi : (passEdge s).bi = s.bi := rfl
@[simp] theorem passEdge_tickq : (passEdge s).tickq = s.tickq := rfl
@[simp] theorem passEdge_ovf : (passEdge s).ovf = s.ovf := rfl
@[simp] theorem passEdge_tlost : (passEdge s).tlost = s.tlost := rfl
@[simp] theorem passEdge_tx : (passEdge s).tx = s.tx := rfl
@[simp] theorem passEdge_wire : (passEdge s).wire = s.wire := rfl
@[simp] theorem passEdge_inputs : (passEdge s).inputs = s.inputs.tail := rfl
@[simp] theorem passEdge_edge : (passEdge s).edge = s.edge + 1 := rfl

end Sys2Proof.Machine
end

