-- ==== Sys2Proof/Laws/Ops.lean ====
section
/-! SUPPORT. One lemma for each shared operation that says once everything it can do. -/

namespace Sys2Proof.Machine

/-! ### Sequencing of results -/

@[simp] theorem andThen_next (s : State) (f : State → Result) : andThen (.next s) f = f s := rfl
@[simp] theorem andThen_fault (e : Fault) (f : State → Result) : andThen (.fault e) f = .fault e := rfl
@[simp] theorem andThen_refused (e : Refusal) (f : State → Result) : andThen (.refused e) f = .refused e := rfl

/-- A sequence ends in a next state exactly when both parts do. -/
theorem andThen_eq_next {r : Result} {f : State → Result} {t : State} :
    andThen r f = .next t ↔ ∃ s, r = .next s ∧ f s = .next t := by
  cases r <;> simp

/-! ### The accept -/

theorem accepts_iff {s : State} : accepts s = true ↔ s.input.txReady = true ∧ s.input.rst = false := by
  simp [accepts]

theorem not_accepts_iff {s : State} : accepts s = false ↔ s.input.txReady = false ∨ s.input.rst = true := by
  unfold accepts; cases s.input.txReady <;> cases s.input.rst <;> decide

theorem atAccept_of_accepts {f : State → State} {s : State} (h : accepts s = true) :
    atAccept f s = .next (f s) := by simp [atAccept, h]

theorem atAccept_of_not {f : State → State} {s : State} (h : accepts s = false) :
    atAccept f s = .next s := by simp [atAccept, h]

/-- An emitting phase always ends in a next state: its effect at an accept, no change without one. -/
theorem atAccept_eq (f : State → State) (s : State) :
    atAccept f s = .next (if accepts s then f s else s) := by
  unfold atAccept; split <;> rfl

/-! ### The sequencer's operation -/

/-- The state after the sequencer's operation at a position with a legal phase. -/
def sequencerNext (s : State) : State :=
  match s.ph.toNat with
  | 0 => if 0 < s.tickq then takeTick s else s
  | 10 => returnToIdle (advanceCounters s)
  | _ => if accepts s then acceptPhase s else s

/-- A phase code is one of the eleven legal ones or above them. -/
theorem ph_cases (p : PhCode) :
    p = 0 ∨ p = 1 ∨ p = 2 ∨ p = 3 ∨ p = 4 ∨ p = 5 ∨ p = 6 ∨ p = 7 ∨ p = 8 ∨ p = 9 ∨ p = 10 ∨ 11 ≤ p.toNat := by
  revert p; decide

/-- The operation of a legal phase gives a next state. -/
theorem exec_fetch_legal {s : State} (h : s.ph.toNat ≤ 10) : exec (fetch s) s = .next (sequencerNext s) := by
  rcases ph_cases s.ph with h' | h' | h' | h' | h' | h' | h' | h' | h' | h' | h' | h'
  case inr.inr.inr.inr.inr.inr.inr.inr.inr.inr.inr => omega
  all_goals
    simp [fetch, decodePhase, sequencerNext, h', exec, execIdle, execStx, execLf, execName, execSp1, execDig, execSp2,
      execChk, execCr, execEtx, execAdv, atAccept_eq, acceptPhase]
  split <;> rfl

/-- A reserved phase code stops the sequencer. -/
theorem exec_fetch_reserved {s : State} (h : 11 ≤ s.ph.toNat) :
    exec (fetch s) s = .fault (.reservedPhase s.ph) := by
  have key : ∀ p : PhCode, 11 ≤ p.toNat → decodePhase p = .phRsv11 ∧ p = 11 ∨ decodePhase p = .phRsv12to15 p := by
    decide
  rcases key s.ph h with ⟨h1, h2⟩ | h1
  · rw [fetch, h1, h2]; rfl
  · rw [fetch, h1]; rfl

/-- The sequencer's operation ends in a next state exactly at a legal phase. -/
theorem exec_fetch_eq_next {s t : State} :
    exec (fetch s) s = .next t ↔ s.ph.toNat ≤ 10 ∧ t = sequencerNext s := by
  by_cases h : s.ph.toNat ≤ 10
  · simp [exec_fetch_legal h, h, eq_comm]
  · simp [exec_fetch_reserved (s := s) (by omega), h]

/-! ### The clock edge -/

/-- The TICK at an edge: queued or lost if the pin asks, nothing otherwise. -/
theorem tickAtEdge_eq (asked : Bool) (s : State) :
    tickAtEdge asked s = .next (if asked then queueTick s else s) := by
  cases asked <;> rfl

/-- The state after a clock edge at a legal phase. -/
def edgeNext (s : State) : State :=
  passEdge (if s.input.tick then queueTick (sequencerNext s) else sequencerNext s)

theorem step_reset {s : State} (h : s.input.rst = true) : step s = .next (passEdge (resetBlock s)) := by
  simp [step, clockEdge, h, exec, execReset]

theorem step_legal {s : State} (h : s.input.rst = false) (hp : s.ph.toNat ≤ 10) : step s = .next (edgeNext s) := by
  simp [step, clockEdge, h, exec_fetch_legal hp, tickAtEdge_eq, edgeNext]

theorem step_reserved {s : State} (h : s.input.rst = false) (hp : 11 ≤ s.ph.toNat) :
    step s = .fault (.reservedPhase s.ph) := by
  simp [step, clockEdge, h, exec_fetch_reserved hp]

/-- Everything a step can do when it gives a next state: a reset, or the sequencer's operation at a legal phase and
then the tick. -/
theorem step_cases {s t : State} (h : step s = .next t) :
    (s.input.rst = true ∧ t = passEdge (resetBlock s))
      ∨ (s.input.rst = false ∧ s.ph.toNat ≤ 10 ∧ t = edgeNext s) := by
  rcases hr : s.input.rst with _ | _
  · right
    by_cases hp : s.ph.toNat ≤ 10
    · rw [step_legal hr hp] at h
      exact ⟨rfl, hp, by simpa using h.symm⟩
    · rw [step_reserved hr (by omega)] at h
      cases h
  · left
    rw [step_reset hr] at h
    exact ⟨rfl, by simpa using h.symm⟩

/-- The tick touches the tick queue and TLOST alone. -/
theorem queueTick_frame (s : State) :
    queueTick s = { s with tickq := (queueTick s).tickq, tlost := (queueTick s).tlost } := by
  unfold queueTick; split <;> rfl

/-! ### What the sequencer's operation does, phase by phase -/

theorem sequencerNext_idle {s : State} (h : s.ph = 0) :
    sequencerNext s = if 0 < s.tickq then takeTick s else s := by simp [sequencerNext, h]

theorem sequencerNext_adv {s : State} (h : s.ph = 10) :
    sequencerNext s = returnToIdle (advanceCounters s) := by simp [sequencerNext, h]

theorem sequencerNext_emitting {s : State} (h1 : 1 ≤ s.ph.toNat) (h9 : s.ph.toNat ≤ 9) :
    sequencerNext s = if accepts s then acceptPhase s else s := by
  unfold sequencerNext; split <;> first | omega | rfl

theorem acceptPhase_stx {s : State} (h : s.ph = 1) : acceptPhase s = acceptStx s := by simp [acceptPhase, h]
theorem acceptPhase_lf {s : State} (h : s.ph = 2) : acceptPhase s = acceptLf s := by simp [acceptPhase, h]
theorem acceptPhase_name {s : State} (h : s.ph = 3) : acceptPhase s = acceptName s := by simp [acceptPhase, h]
theorem acceptPhase_sp1 {s : State} (h : s.ph = 4) : acceptPhase s = acceptSp1 s := by simp [acceptPhase, h]
theorem acceptPhase_dig {s : State} (h : s.ph = 5) : acceptPhase s = acceptDig s := by simp [acceptPhase, h]
theorem acceptPhase_sp2 {s : State} (h : s.ph = 6) : acceptPhase s = acceptSp2 s := by simp [acceptPhase, h]
theorem acceptPhase_chk {s : State} (h : s.ph = 7) : acceptPhase s = acceptChk s := by simp [acceptPhase, h]
theorem acceptPhase_cr {s : State} (h : s.ph = 8) : acceptPhase s = acceptCr s := by simp [acceptPhase, h]
theorem acceptPhase_etx {s : State} (h : s.ph = 9) : acceptPhase s = acceptEtx s := by simp [acceptPhase, h]

/-- An accept sends the byte on offer; TX, the wire, ACC and the position are all it can change. -/
theorem acceptPhase_sends {s : State} {b : Byte} (h : offered s = some b) :
    acceptPhase s = { sendByte b s with
      acc := (acceptPhase s).acc, ph := (acceptPhase s).ph, gi := (acceptPhase s).gi, bi := (acceptPhase s).bi } := by
  rcases ph_cases s.ph with h' | h' | h' | h' | h' | h' | h' | h' | h' | h' | h' | h'
  case inr.inr.inr.inr.inr.inr.inr.inr.inr.inr.inr =>
    exfalso
    revert h; unfold offered; split <;> first | omega | simp
  all_goals
    simp [offered, h'] at h
  all_goals subst h
  · rw [acceptPhase_stx h']; rfl
  · rw [acceptPhase_lf h']; rfl
  · rw [acceptPhase_name h']; unfold acceptName nextInString; split <;> rfl
  · rw [acceptPhase_sp1 h']; rfl
  · rw [acceptPhase_dig h']; unfold acceptDig nextInString; split <;> rfl
  · rw [acceptPhase_sp2 h']; rfl
  · rw [acceptPhase_chk h']; rfl
  · rw [acceptPhase_cr h']; unfold acceptCr nextGroup; split <;> rfl
  · rw [acceptPhase_etx h']; rfl

/-- A byte is on offer exactly in the emitting phases. -/
theorem offered_isSome (s : State) : (offered s).isSome = txValid s := by
  rcases ph_cases s.ph with h | h | h | h | h | h | h | h | h | h | h | h
  case inr.inr.inr.inr.inr.inr.inr.inr.inr.inr.inr =>
    have : isEmitting s.ph = false := by simp [isEmitting]; omega
    rw [txValid, this]; unfold offered; split <;> first | omega | rfl
  all_goals simp [offered, txValid, isEmitting, h]

/-- Everything the sequencer's operation can do at a legal phase: IDLE waits or takes a tick, ADV advances the
counters and returns, an emitting phase waits or sends the byte on offer and moves. -/
theorem sequencer_cases {s : State} (h : s.ph.toNat ≤ 10) :
    (s.ph = 0 ∧ s.tickq = 0 ∧ sequencerNext s = s)
    ∨ (s.ph = 0 ∧ 0 < s.tickq ∧ sequencerNext s = takeTick s)
    ∨ (s.ph = 10 ∧ sequencerNext s = returnToIdle (advanceCounters s))
    ∨ (1 ≤ s.ph.toNat ∧ s.ph.toNat ≤ 9 ∧ accepts s = false ∧ sequencerNext s = s)
    ∨ (1 ≤ s.ph.toNat ∧ s.ph.toNat ≤ 9 ∧ accepts s = true ∧ sequencerNext s = acceptPhase s ∧
        ∃ b, offered s = some b ∧ txData s = b
          ∧ acceptPhase s = { sendByte b s with
              acc := (acceptPhase s).acc, ph := (acceptPhase s).ph, gi := (acceptPhase s).gi,
              bi := (acceptPhase s).bi }) := by
  have hc : s.ph = 0 ∨ s.ph = 10 ∨ 1 ≤ s.ph.toNat ∧ s.ph.toNat ≤ 9 := by
    rcases ph_cases s.ph with h' | h' | h' | h' | h' | h' | h' | h' | h' | h' | h' | h' <;>
      first | omega | simp [h']
  rcases hc with h0 | h10 | ⟨h1, h9⟩
  · rcases Nat.eq_zero_or_pos s.tickq with hq | hq
    · exact .inl ⟨h0, hq, by rw [sequencerNext_idle h0, hq]; rfl⟩
    · exact .inr (.inl ⟨h0, hq, by rw [sequencerNext_idle h0, if_pos hq]⟩)
  · exact .inr (.inr (.inl ⟨h10, sequencerNext_adv h10⟩))
  · rcases ha : accepts s with _ | _
    · exact .inr (.inr (.inr (.inl ⟨h1, h9, rfl, by rw [sequencerNext_emitting h1 h9, ha]; rfl⟩)))
    · have hv : (offered s).isSome = true := by rw [offered_isSome, txValid]; simp [isEmitting, h1, h9]
      obtain ⟨b, hb⟩ := Option.isSome_iff_exists.1 hv
      refine .inr (.inr (.inr (.inr ⟨h1, h9, rfl, ?_, b, hb, by simp [txData, hb], acceptPhase_sends hb⟩)))
      rw [sequencerNext_emitting h1 h9, ha]; rfl

/-- What the sequencer's operation never touches: the environment's edges, the edge count, TLOST. -/
theorem sequencerNext_keeps {s : State} (h : s.ph.toNat ≤ 10) :
    (sequencerNext s).inputs = s.inputs ∧ (sequencerNext s).edge = s.edge ∧ (sequencerNext s).tlost = s.tlost := by
  rcases sequencer_cases h with ⟨-, -, e⟩ | ⟨-, -, e⟩ | ⟨-, e⟩ | ⟨-, -, -, e⟩ | ⟨-, -, -, e, b, -, -, e'⟩
  · rw [e]; exact ⟨rfl, rfl, rfl⟩
  · rw [e]; exact ⟨rfl, rfl, rfl⟩
  · rw [e]; exact ⟨rfl, rfl, rfl⟩
  · rw [e]; exact ⟨rfl, rfl, rfl⟩
  · rw [e, e']; exact ⟨rfl, rfl, rfl⟩

/-- What the sequencer's operation adds to TX and to the wire: the byte on offer at an accept, nothing otherwise
(20_memory.md rules R33 and R34, 60_exceptions.md rule R123). -/
theorem sequencerNext_stream {s : State} (h : s.ph.toNat ≤ 10) :
    (sequencerNext s).tx = (if txValid s && accepts s then s.tx ++ [txData s] else s.tx)
    ∧ (sequencerNext s).wire
        = (if txValid s && accepts s && s.input.delivers then s.wire ++ [txData s] else s.wire) := by
  rcases sequencer_cases h with ⟨h0, -, e⟩ | ⟨h0, -, e⟩ | ⟨h10, e⟩ | ⟨-, -, ha, e⟩ | ⟨h1, h9, ha, e, b, hb, hd, e'⟩
  · rw [e]; simp [txValid, isEmitting, h0]
  · rw [e]; simp [txValid, isEmitting, h0]
  · rw [e]; simp [txValid, isEmitting, h10]
  · rw [e]; simp [ha]
  · have hv : txValid s = true := by simp [txValid, isEmitting, h1, h9]
    rw [e, e', hd, hv, ha]
    exact ⟨rfl, rfl⟩

/-- The phases an accept leads to (42_framer.md rule R110): never IDLE, never STX. -/
theorem acceptPhase_ph {s : State} (h1 : 1 ≤ s.ph.toNat) (h9 : s.ph.toNat ≤ 9) :
    2 ≤ (acceptPhase s).ph.toNat ∧ (acceptPhase s).ph.toNat ≤ 10 := by
  rcases ph_cases s.ph with h' | h' | h' | h' | h' | h' | h' | h' | h' | h' | h' | h'
  case inl => simp [h'] at h1
  case inr.inr.inr.inr.inr.inr.inr.inr.inr.inr.inr => omega
  case inr.inr.inr.inr.inr.inr.inr.inr.inr.inr.inl => simp [h'] at h9
  · simp [acceptPhase_stx h', acceptStx, phLf]
  · simp [acceptPhase_lf h', acceptLf, phName]
  · simp only [acceptPhase_name h', acceptName, nextInString_ph, accAdd_ph, sendByte_ph, h', phSp1]
    split <;> decide
  · simp [acceptPhase_sp1 h', acceptSp1, phDig]
  · simp only [acceptPhase_dig h', acceptDig, nextInString_ph, accAdd_ph, sendByte_ph, h', phSp2]
    split <;> decide
  · simp [acceptPhase_sp2 h', acceptSp2, phChk]
  · simp [acceptPhase_chk h', acceptChk, phCr]
  · simp only [acceptPhase_cr h', acceptCr, nextGroup_ph, phEtx, phLf]
    split <;> decide
  · simp [acceptPhase_etx h', acceptEtx, phAdv]

/-! ### The edge around the sequencer's operation: the tick changes TICKQ and TLOST alone -/

section EdgeNext
variable (s : State)
@[simp] theorem edgeNext_cnt : (edgeNext s).cnt = (sequencerNext s).cnt := by unfold edgeNext; split <;> simp
@[simp] theorem edgeNext_acc : (edgeNext s).acc = (sequencerNext s).acc := by unfold edgeNext; split <;> simp
@[simp] theorem edgeNext_ph : (edgeNext s).ph = (sequencerNext s).ph := by unfold edgeNext; split <;> simp
@[simp] theorem edgeNext_gi : (edgeNext s).gi = (sequencerNext s).gi := by unfold edgeNext; split <;> simp
@[simp] theorem edgeNext_bi : (edgeNext s).bi = (sequencerNext s).bi := by unfold edgeNext; split <;> simp
@[simp] theorem edgeNext_ovf : (edgeNext s).ovf = (sequencerNext s).ovf := by unfold edgeNext; split <;> simp
@[simp] theorem edgeNext_tx : (edgeNext s).tx = (sequencerNext s).tx := by unfold edgeNext; split <;> simp
@[simp] theorem edgeNext_wire : (edgeNext s).wire = (sequencerNext s).wire := by unfold edgeNext; split <;> simp
@[simp] theorem edgeNext_tickq : (edgeNext s).tickq
    = if s.input.tick = true ∧ (sequencerNext s).tickq < Config.tickqMax then (sequencerNext s).tickq + 1
      else (sequencerNext s).tickq := by
  unfold edgeNext; cases s.input.tick <;> simp
@[simp] theorem edgeNext_tlost : (edgeNext s).tlost
    = if s.input.tick = true ∧ ¬(sequencerNext s).tickq < Config.tickqMax then true
      else (sequencerNext s).tlost := by
  unfold edgeNext
  cases s.input.tick
  · simp
  · by_cases h : (sequencerNext s).tickq < Config.tickqMax <;> simp [h]
end EdgeNext

/-- What the position moves read: not the histories, the flags or the environment. -/
theorem nextInString_outside (n : Nat) (p : PhCode) (s : State) (o : OvfFlags) (l : Bool) (w : List Byte)
    (is : List EdgeInput) :
    nextInString n p { s with ovf := o, tlost := l, wire := w, inputs := is }
      = { nextInString n p s with ovf := o, tlost := l, wire := w, inputs := is } := by
  unfold nextInString; dsimp only; split <;> rfl

theorem nextGroup_outside (s : State) (o : OvfFlags) (l : Bool) (w : List Byte) (is : List EdgeInput) :
    nextGroup { s with ovf := o, tlost := l, wire := w, inputs := is }
      = { nextGroup s with ovf := o, tlost := l, wire := w, inputs := is } := by
  unfold nextGroup; dsimp only; split <;> rfl

/-- An accept does not read OVF, TLOST, the wire or the environment's edges, but for what it adds to the wire. -/
theorem acceptPhase_outside (s : State) (o : OvfFlags) (l : Bool) (w : List Byte) (is : List EdgeInput) :
    ∃ w', acceptPhase { s with ovf := o, tlost := l, wire := w, inputs := is }
      = { acceptPhase s with ovf := o, tlost := l, wire := w', inputs := is } := by
  have hs : ∀ b, ∃ w', sendByte b { s with ovf := o, tlost := l, wire := w, inputs := is }
      = { sendByte b s with ovf := o, tlost := l, wire := w', inputs := is } := fun _ => ⟨_, rfl⟩
  have hadd : ∀ b t v, accAdd b { t with ovf := o, tlost := l, wire := v, inputs := is }
      = { accAdd b t with ovf := o, tlost := l, wire := v, inputs := is } := fun _ _ _ => rfl
  unfold acceptPhase
  simp only [acceptStx, acceptLf, acceptName, acceptSp1, acceptDig, acceptSp2, acceptChk, acceptCr, acceptEtx,
    accHold]
  split
  · obtain ⟨w', h⟩ := hs Config.stxByte; rw [h]; exact ⟨w', rfl⟩
  · obtain ⟨w', h⟩ := hs Config.lfByte; rw [h]; exact ⟨w', rfl⟩
  · obtain ⟨w', h⟩ := hs (nameByte s.gi s.bi); rw [h, hadd, nextInString_outside]; exact ⟨w', rfl⟩
  · obtain ⟨w', h⟩ := hs Config.spByte; rw [h]; exact ⟨w', rfl⟩
  · obtain ⟨w', h⟩ := hs (digByte s.cnt s.gi s.bi); rw [h, hadd, nextInString_outside]; exact ⟨w', rfl⟩
  · obtain ⟨w', h⟩ := hs Config.spByte; rw [h]; exact ⟨w', rfl⟩
  · obtain ⟨w', h⟩ := hs (chkByte s.acc); rw [h]; exact ⟨w', rfl⟩
  · obtain ⟨w', h⟩ := hs Config.crByte; rw [h, nextGroup_outside]; exact ⟨w', rfl⟩
  · obtain ⟨w', h⟩ := hs Config.etxByte; rw [h]; exact ⟨w', rfl⟩
  · exact ⟨w, rfl⟩

/-- The sequencer's operation at a legal phase reads neither the flags nor the wire, and of the environment only
whether the transport accepts: where that is the same, everything but these fields comes out the same. -/
theorem sequencerNext_outside {s : State} (h : s.ph.toNat ≤ 10) (o : OvfFlags) (l : Bool) (w : List Byte)
    (is : List EdgeInput) (ha : accepts { s with ovf := o, tlost := l, wire := w, inputs := is } = accepts s) :
    ∃ o' w', sequencerNext { s with ovf := o, tlost := l, wire := w, inputs := is }
        = { sequencerNext s with ovf := o', tlost := l, wire := w', inputs := is }
      ∧ (o = s.ovf → o' = (sequencerNext s).ovf) := by
  rcases sequencer_cases h with ⟨h0, hq, e⟩ | ⟨h0, hq, e⟩ | ⟨h10, e⟩ | ⟨h1, h9, hn, e⟩ | ⟨h1, h9, hy, e, b, -, -, e'⟩
  · refine ⟨o, w, ?_, fun h => by rw [e, h]⟩
    rw [sequencerNext_idle (by exact h0), e, if_neg (by simp [hq])]
  · refine ⟨o, w, ?_, fun h => by rw [e, h]; rfl⟩
    rw [sequencerNext_idle (by exact h0), e, if_pos (by exact hq)]; rfl
  · refine ⟨o ||| wraps s.cnt, w, ?_, fun h => by rw [e, h]; rfl⟩
    rw [sequencerNext_adv (by exact h10), e]; rfl
  · refine ⟨o, w, ?_, fun h => by rw [e, h]⟩
    rw [sequencerNext_emitting (by exact h1) (by exact h9), ha, hn, e]; rfl
  · obtain ⟨w', hw⟩ := acceptPhase_outside s o l w is
    refine ⟨o, w', ?_, fun h => by rw [e, e', h]; rfl⟩
    rw [sequencerNext_emitting (by exact h1) (by exact h9), ha, hy, e]
    exact hw

/-- With the same `tx_ready`, `rst` and delivery at the next edge the sequencer's operation does the same, the wire
included. -/
theorem sequencerNext_inputs (s : State) (l : List EdgeInput)
    (h1 : (l.headD .quiet).txReady = s.input.txReady) (h2 : (l.headD .quiet).rst = s.input.rst)
    (h3 : (l.headD .quiet).delivers = s.input.delivers) :
    sequencerNext { s with inputs := l } = { sequencerNext s with inputs := l } := by
  have ha : accepts { s with inputs := l } = accepts s := by simp only [accepts, State.input, h1, h2]
  have hs : ∀ b, sendByte b { s with inputs := l } = { sendByte b s with inputs := l } := by
    intro b; simp only [sendByte, State.input, h3]; rfl
  have hn : ∀ n p t, nextInString n p { t with inputs := l } = { nextInString n p t with inputs := l } := by
    intro n p t; unfold nextInString; dsimp only; split <;> rfl
  have hg : ∀ t, nextGroup { t with inputs := l } = { nextGroup t with inputs := l } := by
    intro t; unfold nextGroup; dsimp only; split <;> rfl
  have hadd : ∀ b t, accAdd b { t with inputs := l } = { accAdd b t with inputs := l } := fun _ _ => rfl
  have hp : acceptPhase { s with inputs := l } = { acceptPhase s with inputs := l } := by
    unfold acceptPhase
    simp only [acceptStx, acceptLf, acceptName, acceptSp1, acceptDig, acceptSp2, acceptChk, acceptCr, acceptEtx, hs,
      accHold, hadd, hn, hg]
    split <;> rfl
  unfold sequencerNext
  simp only [ha, hp]
  split
  · split <;> rfl
  · rfl
  · split <;> rfl

/-! ### The STATUS word -/

/-- STATUS bit by bit, each field found by taking off the widths of the fields below it (10_state.md rule R19). -/
theorem status_getLsbD (s : State) (i : Nat) :
    (status s).getLsbD i =
      if i < 4 then s.ph.getLsbD i
      else if i - 4 < 3 then s.gi.getLsbD (i - 4)
      else if i - 4 - 3 < 1 then busy s && decide (i - 4 - 3 = 0)
      else if i - 4 - 3 - 1 < 5 then s.ovf.getLsbD (i - 4 - 3 - 1)
      else if i - 4 - 3 - 1 - 5 < 1 then s.tlost && decide (i - 4 - 3 - 1 - 5 = 0)
      else if i - 4 - 3 - 1 - 5 - 1 < 1 then tpend s && decide (i - 4 - 3 - 1 - 5 - 1 = 0)
      else false := by
  have key : ∀ (a b c : Bool) (o : OvfFlags) (d : Bool) (g : GrpIdx) (p : PhCode),
      (BitVec.ofBool c ++ BitVec.ofBool a ++ BitVec.ofBool b ++ o ++ BitVec.ofBool d ++ g ++ p
          : BitVec (1 + 1 + 1 + 5 + 1 + 3 + 4)).getLsbD i =
        if i < 4 then p.getLsbD i
        else if i - 4 < 3 then g.getLsbD (i - 4)
        else if i - 4 - 3 < 1 then d && decide (i - 4 - 3 = 0)
        else if i - 4 - 3 - 1 < 5 then o.getLsbD (i - 4 - 3 - 1)
        else if i - 4 - 3 - 1 - 5 < 1 then b && decide (i - 4 - 3 - 1 - 5 = 0)
        else if i - 4 - 3 - 1 - 5 - 1 < 1 then a && decide (i - 4 - 3 - 1 - 5 - 1 = 0)
        else c && decide (i - 4 - 3 - 1 - 5 - 1 - 1 = 0) := by
    intro a b c o d g p
    simp only [BitVec.getLsbD_append, BitVec.getLsbD_ofBool]
    simp only [Bool.and_comm]
  have := key (tpend s) s.tlost false s.ovf (busy s) s.gi s.ph
  simp only [Bool.false_and] at this
  exact this

end Sys2Proof.Machine
end

