-- ==== Sys2Proof/Laws/Functions.lean ====
section
/-! SUPPORT. Spec lemmas of the pure functions: table reads, digits, sums and checksums, the counters' advance. -/

namespace Sys2Proof.Machine

/-! ### Table reads -/

/-- GI in 0..4 names the group of that number. -/
theorem grp?_of_toNat {gi : GrpIdx} {g : Grp} (h : gi.toNat = g.val) : grp? gi = some g := by
  have := g.2
  simp only [grp?, h, this, dite_true]

/-- A legal GI names a group. -/
theorem exists_grp {gi : GrpIdx} (h : gi.toNat ≤ 4) : ∃ g : Grp, gi.toNat = g.val :=
  ⟨⟨gi.toNat, Nat.lt_succ_of_le h⟩, rfl⟩

theorem nlenOf_eq {gi : GrpIdx} {g : Grp} (h : gi.toNat = g.val) : nlenOf gi = (Config.desc g).nlen := by
  simp [nlenOf, grp?_of_toNat h]

theorem widthOf_eq {gi : GrpIdx} {g : Grp} (h : gi.toNat = g.val) : widthOf gi = (Config.desc g).width := by
  simp [widthOf, grp?_of_toNat h]

theorem counterOf_eq {c : Counters} {gi : GrpIdx} {g : Grp} (h : gi.toNat = g.val) : counterOf c gi = c.get g := by
  simp [counterOf, grp?_of_toNat h]

theorem nameByte_eq {gi : GrpIdx} {bi : ByteIdx} {g : Grp} {b : Byte} (h : gi.toNat = g.val)
    (hb : (Config.desc g).name[bi.toNat]? = some b) : nameByte gi bi = b := by
  simp [nameByte, grp?_of_toNat h, hb]

theorem digByte_eq {c : Counters} {gi : GrpIdx} {bi : ByteIdx} {g : Grp} (h : gi.toNat = g.val)
    (hb : bi.toNat < (Config.desc g).width) :
    digByte c gi bi = digitByte (c.get g).toNat (Config.desc g).width bi.toNat := by
  simp [digByte, widthOf_eq h, counterOf_eq h, hb]

/-! ### Digits (30_encoding.md rule R48) -/

theorem digitByte_toNat (v w k : Nat) : (digitByte v w k).toNat = 0x30 + (v / 10 ^ (w - 1 - k)) % 10 := by
  simp [digitByte, Config.zeroByte]; omega

@[simp] theorem digits_length (v w : Nat) : (digits v w).length = w := by simp [digits]

theorem digits_getElem? {v w k : Nat} (h : k < w) : (digits v w)[k]? = some (digitByte v w k) := by
  simp [digits, h]

theorem dec_of_lt {v w : Nat} (h1 : 1 ≤ w) (h9 : w ≤ 9) (h : v < 10 ^ w) : dec v w = some (digits v w) := by
  simp [dec, Config.widthMax, h1, h9, h]

theorem dec_eq_none {v w : Nat} (h : 10 ^ w ≤ v) : dec v w = none := by
  simp [dec]; omega

/-! ### Sums and checksums (40_checksum.md) -/

@[simp] theorem byteSum_nil : byteSum [] = 0 := rfl
@[simp] theorem byteSum_cons (b : Byte) (bs : List Byte) : byteSum (b :: bs) = b.toNat + byteSum bs := rfl

@[simp] theorem byteSum_append (a b : List Byte) : byteSum (a ++ b) = byteSum a + byteSum b := by
  induction a with
  | nil => simp
  | cons x xs ih => simp [ih]; omega

/-- 40_checksum.md rule R74: the sum does not depend on the order. -/
theorem byteSum_perm {a b : List Byte} (h : a.Perm b) : byteSum a = byteSum b := by
  induction h with
  | nil => rfl
  | cons x _ ih => simp [ih]
  | swap x y l => simp; omega
  | trans _ _ h1 h2 => exact h1.trans h2

theorem cksum_toNat (l : List Byte) : (cksum l).toNat = byteSum l % 64 + 0x20 := by
  have : byteSum l &&& 63 = byteSum l % 64 := Nat.and_two_pow_sub_one_eq_mod _ 6
  simp [cksum, this]; omega

theorem chkOf_toNat (a : AccWord) : (chkOf a).toNat = a.toNat % 64 + 0x20 := by
  have : a.toNat &&& 63 = a.toNat % 64 := Nat.and_two_pow_sub_one_eq_mod a.toNat 6
  simp [chkOf, Config.mask, Config.offset, BitVec.toNat_add, BitVec.toNat_and, this]
  omega

/-- 40_checksum.md rule R72: the accumulator's 16 bits are enough for the checksum. -/
theorem chkOf_byteSum (l : List Byte) : chkOf (BitVec.ofNat 16 (byteSum l)) = cksum l := by
  apply BitVec.eq_of_toNat_eq
  rw [chkOf_toNat, cksum_toNat]; simp

theorem chkByte_toNat (a : AccWord) : (chkByte a).toNat = a.toNat % 64 + 0x20 := by
  simp [chkByte, chkOf_toNat]; omega

/-- Adding a byte to ACC is adding numbers modulo 2^16. -/
theorem acc_add_zext16 (a : AccWord) (b : Byte) :
    a + zext16 b = BitVec.ofNat 16 ((a.toNat + b.toNat) % 65536) := by
  apply BitVec.eq_of_toNat_eq; simp

/-- Adding a byte to an accumulated sum gives the sum with that byte. -/
theorem acc_add_byte (n : Nat) (b : Byte) : BitVec.ofNat 16 n + zext16 b = BitVec.ofNat 16 (n + b.toNat) := by
  apply BitVec.eq_of_toNat_eq; simp

/-! ### Data Group -/

theorem csub_of_lt {name : List Byte} {v w : Nat} (hn : name ≠ []) (h1 : 1 ≤ w) (h9 : w ≤ 9) (h : v < 10 ^ w) :
    csub name v w = some (name ++ [Config.spByte] ++ digits v w) := by
  simp [csub, hn, dec_of_lt h1 h9 h]

theorem group_of_lt {name : List Byte} {v w : Nat} (hn : name ≠ []) (h1 : 1 ≤ w) (h9 : w ≤ 9) (h : v < 10 ^ w) :
    group name v w = some ([Config.lfByte] ++ (name ++ [Config.spByte] ++ digits v w) ++
      [Config.spByte, (cksum (name ++ [Config.spByte] ++ digits v w)).setWidth 8, Config.crByte]) := by
  simp [group, csub_of_lt hn h1 h9 h]

/-- Every entry of DESC is well formed (41_group_encoder.md rule R92). -/
theorem desc_wf : ∀ g : Grp, (Config.desc g).name ≠ [] ∧ 1 ≤ (Config.desc g).width ∧ (Config.desc g).width ≤ 9 := by
  decide

theorem groupOf_of_lt {c : Counters} {g : Grp} (h : (c.get g).toNat < 10 ^ (Config.desc g).width) :
    groupOf c g = some ([Config.lfByte] ++ ((Config.desc g).name ++ [Config.spByte]
      ++ digits (c.get g).toNat (Config.desc g).width) ++ [Config.spByte,
        (cksum ((Config.desc g).name ++ [Config.spByte]
          ++ digits (c.get g).toNat (Config.desc g).width)).setWidth 8, Config.crByte]) :=
  group_of_lt (desc_wf g).1 (desc_wf g).2.1 (desc_wf g).2.2 h

/-! ### Counters -/

@[simp] theorem Counters_get_ofFn (f : Grp → CntWord) (g : Grp) : (Counters.ofFn f).get g = f g := by
  match g with
  | 0 => rfl
  | 1 => rfl
  | 2 => rfl
  | 3 => rfl
  | 4 => rfl

/-- Counters equal at every index are equal. -/
theorem Counters_ext_get {c d : Counters} (h : ∀ g : Grp, c.get g = d.get g) : c = d := by
  have h0 := h 0
  have h1 := h 1
  have h2 := h 2
  have h3 := h 3
  have h4 := h 4
  cases c; cases d
  simp_all [Counters.get]

theorem ovfOfFn_getLsbD (f : Grp → Bool) (g : Grp) : (ovfOfFn f).getLsbD g.val = f g := by
  have key : ∀ b0 b1 b2 b3 b4 : Bool, ∀ i : Grp,
      (BitVec.ofBool b4 ++ BitVec.ofBool b3 ++ BitVec.ofBool b2 ++ BitVec.ofBool b1 ++ BitVec.ofBool b0).getLsbD i.val
        = match i with | 0 => b0 | 1 => b1 | 2 => b2 | 3 => b3 | 4 => b4 := by decide
  rw [ovfOfFn, key]
  match g with
  | 0 => rfl
  | 1 => rfl
  | 2 => rfl
  | 3 => rfl
  | 4 => rfl

@[simp] theorem bumpAll_get (c : Counters) (g : Grp) : (bumpAll c).get g = bump (c.get g) (Config.desc g).width := by
  simp [bumpAll]

theorem atCapacity_iff {c : CntWord} {w : Nat} : atCapacity c w = true ↔ c.toNat = 10 ^ w - 1 := by
  simp [atCapacity]

/-- A capacity fits 32 bits (10_state.md rule R12). -/
theorem capacity_lt : ∀ g : Grp, 10 ^ (Config.desc g).width < 2 ^ 32 := by decide

theorem capacity_pos (g : Grp) : 0 < 10 ^ (Config.desc g).width := Nat.pow_pos (by decide)

/-- One counter's advance in its range is plus 1 modulo its capacity. -/
theorem bump_toNat {c : CntWord} {g : Grp} (h : c.toNat < 10 ^ (Config.desc g).width) :
    (bump c (Config.desc g).width).toNat = (c.toNat + 1) % 10 ^ (Config.desc g).width := by
  have h1 := capacity_lt g
  have h2 := capacity_pos g
  unfold bump
  split
  · next hc =>
    rw [atCapacity_iff] at hc
    rw [hc, Nat.sub_add_cancel h2]; simp
  · next hc =>
    rw [atCapacity_iff] at hc
    rw [Nat.mod_eq_of_lt (by omega), BitVec.toNat_add]
    simp; omega

/-- In range, ADV's counters are the pure function's (42_framer.md rules R100 and R105). -/
theorem bumpAll_eq_adv {c : Counters} (h : CountersInRange c) : bumpAll c = (adv c).1 := by
  apply Counters_ext_get
  intro g
  apply BitVec.eq_of_toNat_eq
  rw [bumpAll_get, bump_toNat (h g)]
  simp only [adv, Counters_get_ofFn, BitVec.toNat_ofNat]
  exact (Nat.mod_eq_of_lt (Nat.lt_trans (Nat.mod_lt _ (capacity_pos g)) (capacity_lt g))).symm

theorem wraps_eq_adv (c : Counters) : wraps c = (adv c).2 := rfl

theorem adv_get_toNat (c : Counters) (g : Grp) :
    ((adv c).1.get g).toNat = ((c.get g).toNat + 1) % 10 ^ (Config.desc g).width := by
  simp only [adv, Counters_get_ofFn, BitVec.toNat_ofNat]
  exact Nat.mod_eq_of_lt (Nat.lt_trans (Nat.mod_lt _ (capacity_pos g)) (capacity_lt g))

/-! ### Sequences of operations -/

theorem runOps_append (a b : List Instr) (s : State) : runOps (a ++ b) s = andThen (runOps a s) (runOps b) := by
  induction a generalizing s with
  | nil => rfl
  | cons i is ih =>
    simp only [List.cons_append, runOps]
    cases exec i s with
    | next t => simp [ih]
    | fault e => rfl
    | refused e => rfl

end Sys2Proof.Machine
end

