-- ==== Sys2Proof/Laws/PerInstr.lean ====
section
/-! SUPPORT. Statements about every operation as syntax, one lemma per constructor. -/

namespace Sys2Proof.Laws

/-- The operation survives encoding and decoding in its own format, whatever bytes follow. -/
def RoundTrip.Statement (i : Instr) : Prop :=
  ∀ rest : List Byte, i.wf = true → decode i.format (encode i ++ rest) = .ok i rest

/-- What the phase decoder makes of the codes 12 to 15. -/
theorem decodePhase_reserved : ∀ code : PhCode, 12 ≤ code.toNat → decodePhase code = .phRsv12to15 code := by decide

theorem RoundTrip.ckHold : RoundTrip.Statement .ckHold := fun _ _ => rfl
theorem RoundTrip.ckClr : RoundTrip.Statement .ckClr := fun _ _ => rfl
theorem RoundTrip.ckAdd (ckByte : Byte) : RoundTrip.Statement (.ckAdd ckByte) := fun _ _ => rfl
theorem RoundTrip.ckRsv : RoundTrip.Statement .ckRsv := fun _ _ => rfl
theorem RoundTrip.idle : RoundTrip.Statement .idle := fun _ _ => rfl
theorem RoundTrip.stx : RoundTrip.Statement .stx := fun _ _ => rfl
theorem RoundTrip.lf : RoundTrip.Statement .lf := fun _ _ => rfl
theorem RoundTrip.name : RoundTrip.Statement .name := fun _ _ => rfl
theorem RoundTrip.sp1 : RoundTrip.Statement .sp1 := fun _ _ => rfl
theorem RoundTrip.dig : RoundTrip.Statement .dig := fun _ _ => rfl
theorem RoundTrip.sp2 : RoundTrip.Statement .sp2 := fun _ _ => rfl
theorem RoundTrip.chk : RoundTrip.Statement .chk := fun _ _ => rfl
theorem RoundTrip.cr : RoundTrip.Statement .cr := fun _ _ => rfl
theorem RoundTrip.etx : RoundTrip.Statement .etx := fun _ _ => rfl
theorem RoundTrip.adv : RoundTrip.Statement .adv := fun _ _ => rfl
theorem RoundTrip.phRsv11 : RoundTrip.Statement .phRsv11 := fun _ _ => rfl

theorem RoundTrip.phRsv12to15 (code : PhCode) : RoundTrip.Statement (.phRsv12to15 code) := by
  intro rest h
  have hc : 12 ≤ code.toNat := by simpa [Instr.wf] using h
  have hw : (code.setWidth 8 : Byte).toNat = code.toNat := by simp; omega
  have hb : ((code.setWidth 8 : Byte).setWidth 4 : PhCode) = code := by
    apply BitVec.eq_of_toNat_eq; simp
  show decodePh4 (code.setWidth 8) rest = _
  rw [decodePh4, if_neg (by rw [hw]; omega), hb, decodePhase_reserved code hc]

theorem RoundTrip.reset : RoundTrip.Statement .reset := fun _ _ => rfl
theorem RoundTrip.tick : RoundTrip.Statement .tick := fun _ _ => rfl
theorem RoundTrip.accept : RoundTrip.Statement .accept := fun _ _ => rfl

end Sys2Proof.Laws
end

