-- ==== Sys2Proof/Laws/Stream.lean ====
section
/-! SUPPORT. Where each byte of a Frame stands: the byte a position offers is the one the frame has at the number of
bytes already sent (42_framer.md rule R110 against 30_encoding.md rules R46 and R47). -/

namespace Sys2Proof.Machine

/-- The bytes of group g for counters in range (30_encoding.md rule R46). -/
def groupBytes (c : Counters) (g : Grp) : List Byte :=
  [Config.lfByte]
    ++ ((Config.desc g).name ++ [Config.spByte] ++ digits (c.get g).toNat (Config.desc g).width)
    ++ [Config.spByte,
        (cksum ((Config.desc g).name ++ [Config.spByte]
          ++ digits (c.get g).toNat (Config.desc g).width)).setWidth 8,
        Config.crByte]

/-- The bytes of a frame for counters in range (30_encoding.md rule R47). -/
def frameBytes (c : Counters) : List Byte :=
  [Config.stxByte] ++ groupBytes c 0 ++ groupBytes c 1 ++ groupBytes c 2 ++ groupBytes c 3 ++ groupBytes c 4
    ++ [Config.etxByte]

theorem groupOf_eq {c : Counters} (h : CountersInRange c) (g : Grp) : groupOf c g = some (groupBytes c g) :=
  groupOf_of_lt (h g)

theorem frame_eq {c : Counters} (h : CountersInRange c) : frame c = some (frameBytes c) := by
  simp only [frame, groupOf_eq h, frameBytes]

/-- 41_group_encoder.md rule R80: a group has `nlen + width + 5` bytes. -/
theorem groupBytes_length (c : Counters) (g : Grp) :
    (groupBytes c g).length = (Config.desc g).nlen + (Config.desc g).width + 5 := by
  simp [groupBytes, Descriptor.nlen]; omega

theorem frameBytes_length (c : Counters) : (frameBytes c).length = 83 := by
  simp [frameBytes, groupBytes_length, Descriptor.nlen, Config.desc]

/-- The offsets of the groups in a frame (95_test_vectors.md V4). -/
theorem groupStart_values :
    groupStart 0 = 1 ∧ groupStart 1 = 19 ∧ groupStart 2 = 37 ∧ groupStart 3 = 55 ∧ groupStart 4 = 68
      ∧ groupStart 5 = 82 := by decide

/-- Byte k of group g stands at its offset in the frame. -/
theorem frameBytes_getElem?_group (c : Counters) (g : Grp) {k : Nat}
    (hk : k < (Config.desc g).nlen + (Config.desc g).width + 5) :
    (frameBytes c)[groupStart g.val + k]? = (groupBytes c g)[k]? := by
  have split : ∀ (P G Q : List Byte), k < G.length → (P ++ (G ++ Q))[P.length + k]? = G[k]? := by
    intro P G Q h
    rw [List.getElem?_append_right (by omega), Nat.add_sub_cancel_left, List.getElem?_append_left h]
  have hl : k < (groupBytes c g).length := by rw [groupBytes_length]; exact hk
  have len : ∀ i : Grp, (groupBytes c i).length = (Config.desc i).nlen + (Config.desc i).width + 5 :=
    groupBytes_length c
  obtain ⟨s0, s1, s2, s3, s4, -⟩ := groupStart_values
  match g with
  | 0 =>
    have := split [Config.stxByte] (groupBytes c 0)
      (groupBytes c 1 ++ groupBytes c 2 ++ groupBytes c 3 ++ groupBytes c 4 ++ [Config.etxByte]) hl
    simpa [frameBytes, s0] using this
  | 1 =>
    have := split ([Config.stxByte] ++ groupBytes c 0) (groupBytes c 1)
      (groupBytes c 2 ++ groupBytes c 3 ++ groupBytes c 4 ++ [Config.etxByte]) hl
    simpa [frameBytes, s1, len, Descriptor.nlen, Config.desc] using this
  | 2 =>
    have := split ([Config.stxByte] ++ groupBytes c 0 ++ groupBytes c 1) (groupBytes c 2)
      (groupBytes c 3 ++ groupBytes c 4 ++ [Config.etxByte]) hl
    simpa [frameBytes, s2, NGRP, len, Descriptor.nlen, Config.desc] using this
  | 3 =>
    have := split ([Config.stxByte] ++ groupBytes c 0 ++ groupBytes c 1 ++ groupBytes c 2) (groupBytes c 3)
      (groupBytes c 4 ++ [Config.etxByte]) hl
    simpa [frameBytes, s3, NGRP, len, Descriptor.nlen, Config.desc] using this
  | 4 =>
    have := split ([Config.stxByte] ++ groupBytes c 0 ++ groupBytes c 1 ++ groupBytes c 2 ++ groupBytes c 3)
      (groupBytes c 4) [Config.etxByte] hl
    simpa [frameBytes, s4, len, Descriptor.nlen, Config.desc] using this

/-! ### The bytes of a group, place by place (30_encoding.md rule R46) -/

section Places
variable (c : Counters) (g : Grp)

theorem groupBytes_lf : (groupBytes c g)[0]? = some Config.lfByte := rfl

theorem groupBytes_name {k : Nat} (h : k < (Config.desc g).nlen) :
    (groupBytes c g)[1 + k]? = (Config.desc g).name[k]? := by
  have h' : k < (Config.desc g).name.length := h
  simp [groupBytes, Nat.add_comm 1 k, List.getElem?_append, h']

theorem groupBytes_sp1 : (groupBytes c g)[1 + (Config.desc g).nlen]? = some Config.spByte := by
  simp [groupBytes, Descriptor.nlen, Nat.add_comm 1]

theorem groupBytes_digit {k : Nat} (h : k < (Config.desc g).width) :
    (groupBytes c g)[2 + (Config.desc g).nlen + k]?
      = some (digitByte (c.get g).toNat (Config.desc g).width k) := by
  have e : 2 + (Config.desc g).nlen + k = ((Config.desc g).name.length + (k + 1)) + 1 := by
    simp [Descriptor.nlen]; omega
  rw [e]
  simp [groupBytes, List.getElem?_append, h, digits]

theorem groupBytes_tail (j : Nat) :
    (groupBytes c g)[2 + (Config.desc g).nlen + (Config.desc g).width + j]?
      = [Config.spByte,
          (cksum ((Config.desc g).name ++ [Config.spByte]
            ++ digits (c.get g).toNat (Config.desc g).width)).setWidth 8,
          Config.crByte][j]? := by
  rw [groupBytes, List.getElem?_append_right (by simp [Descriptor.nlen]; omega)]
  congr 1
  simp [Descriptor.nlen]; omega

end Places

/-- The sum of a whole checksummable substring is what `chk` turns into the group's checksum byte. -/
theorem chkByte_of_sum (l : List Byte) : chkByte (BitVec.ofNat 16 (byteSum l)) = (cksum l).setWidth 8 := by
  rw [chkByte, chkOf_byteSum]

/-- At a legal position the byte on offer is the frame's byte number `sentInFrame`: the next one to be sent. -/
theorem frameBytes_sentInFrame {s : State} (h : BlockOk s) {b : Byte} (hb : offered s = some b) :
    (frameBytes s.cnt)[sentInFrame s]? = some b := by
  obtain ⟨⟨hp10, hg, hgi, hbi, hname, hdig⟩, hc, -, hacc⟩ := h
  obtain ⟨g, hgv⟩ := exists_grp hg
  have hn := nlenOf_eq hgv
  have hw := widthOf_eq hgv
  have gp := fun {k} (hk : k < (Config.desc g).nlen + (Config.desc g).width + 5) => frameBytes_getElem?_group s.cnt g hk
  rcases ph_cases s.ph with h' | h' | h' | h' | h' | h' | h' | h' | h' | h' | h' | h'
  case inr.inr.inr.inr.inr.inr.inr.inr.inr.inr.inr => omega
  all_goals simp [offered, h'] at hb
  all_goals subst hb
  · simp [sentInFrame, h', frameBytes]
  · simpa [sentInFrame, h', hgv, groupBytes_lf] using gp (k := 0) (by omega)
  · have hlt := hname h'
    rw [hn] at hlt
    have hb' : (Config.desc g).name[s.bi.toNat]? = some (nameByte s.gi s.bi) := by
      have hlt' : s.bi.toNat < (Config.desc g).name.length := hlt
      obtain ⟨b, hb⟩ : ∃ b, (Config.desc g).name[s.bi.toNat]? = some b := ⟨_, List.getElem?_eq_getElem hlt'⟩
      rw [nameByte_eq hgv hb, hb]
    have := gp (k := 1 + s.bi.toNat) (by omega)
    rw [groupBytes_name s.cnt g hlt, hb', ← hgv] at this
    simpa [sentInFrame, h', Nat.add_assoc] using this
  · have := gp (k := 1 + (Config.desc g).nlen) (by omega)
    rw [groupBytes_sp1, ← hgv, ← hn] at this
    simpa [sentInFrame, h', Nat.add_assoc] using this
  · have hlt := hdig h'
    rw [hw] at hlt
    have := gp (k := 2 + (Config.desc g).nlen + s.bi.toNat) (by omega)
    rw [groupBytes_digit s.cnt g hlt, ← hgv, ← hn, ← digByte_eq hgv hlt] at this
    simpa [sentInFrame, h', Nat.add_assoc] using this
  · have := gp (k := 2 + (Config.desc g).nlen + (Config.desc g).width + 0) (by omega)
    rw [groupBytes_tail, ← hgv, ← hn, ← hw] at this
    simpa [sentInFrame, h', Nat.add_assoc] using this
  · have := gp (k := 2 + (Config.desc g).nlen + (Config.desc g).width + 1) (by omega)
    have e : sentInFrame s = groupStart g.val + (2 + (Config.desc g).nlen + (Config.desc g).width + 1) := by
      simp [sentInFrame, h', hn, hw, hgv]; omega
    have ha := hacc (by simp [h']) (by simp [h'])
    simp only [summedBytes, grp?_of_toNat hgv, h'] at ha
    rw [e, this, groupBytes_tail, ha, chkByte_of_sum]
    simp
  · have := gp (k := 2 + (Config.desc g).nlen + (Config.desc g).width + 2) (by omega)
    have e : sentInFrame s = groupStart g.val + (2 + (Config.desc g).nlen + (Config.desc g).width + 2) := by
      simp [sentInFrame, h', hn, hw, hgv]; omega
    rw [e, this, groupBytes_tail]
    simp
  · obtain ⟨-, -, -, -, -, s5⟩ := groupStart_values
    have hl : ([Config.stxByte] ++ groupBytes s.cnt 0 ++ groupBytes s.cnt 1 ++ groupBytes s.cnt 2
        ++ groupBytes s.cnt 3 ++ groupBytes s.cnt 4).length = 82 := by
      simp [groupBytes_length, Descriptor.nlen, Config.desc]
    rw [frameBytes, List.getElem?_append_right (by rw [hl]; simp [sentInFrame, h', s5]), hl]
    simp [sentInFrame, h', s5]

end Sys2Proof.Machine
end

