-- ==== Sys2Proof/Laws/Runs.lean ====
section
/-! SUPPORT. Sequences of sequencer operations: how they compose, that at every accept the sequencer's operation is
ACCEPT, and what a whole name and a whole digit field do (41_group_encoder.md rules R82 and R84). -/

namespace Sys2Proof.Machine

/-- The sequencer, started in `s`, performs exactly the operations `l` and then stands in `t`. -/
def Runs (l : List Instr) (s t : State) : Prop := runSequencer l.length s = (l, .next t)

theorem runs_nil (s : State) : Runs [] s s := rfl

theorem runs_cons {l : List Instr} {s u t : State} (h : exec (fetch s) s = .next u) (hl : Runs l u t) :
    Runs (fetch s :: l) s t := by
  simp only [Runs, List.length_cons, runSequencer, h]
  rw [show runSequencer l.length u = (l, .next t) from hl]

theorem runs_append {a b : List Instr} : ∀ {s u t : State}, Runs a s u → Runs b u t → Runs (a ++ b) s t := by
  induction a with
  | nil =>
    intro s u t ha hb
    simp only [Runs, List.length_nil, runSequencer, Prod.mk.injEq, Host.Outcome.next.injEq, true_and] at ha
    exact ha ▸ hb
  | cons i is ih =>
    intro s u t ha hb
    simp only [Runs, List.length_cons, runSequencer] at ha
    cases he : exec (fetch s) s with
    | next v =>
      simp only [he, Prod.mk.injEq, List.cons.injEq] at ha
      obtain ⟨⟨rfl, h1⟩, h2⟩ := ha
      exact runs_cons he (ih (Prod.ext h1 h2) hb)
    | fault e => simp [he] at ha
    | refused e => simp [he] at ha

/-- At an accept the sequencer's operation is the phase's (20_memory.md rule R33). -/
theorem runs_accept {l : List Instr} {s t : State} (ha : accepts s = true) (h1 : 1 ≤ s.ph.toNat)
    (h9 : s.ph.toNat ≤ 9) (hl : Runs l (acceptPhase s) t) : Runs (fetch s :: l) s t := by
  refine runs_cons ?_ hl
  rw [exec_fetch_legal (by omega), sequencerNext_emitting h1 h9, ha]
  rfl

theorem drop_of_getElem? {α : Type} {l : List α} {k : Nat} {x : α} (h : l[k]? = some x) :
    l.drop k = x :: l.drop (k + 1) := by
  rw [List.drop_eq_getElem?_toList_append, h]; rfl

/-- The rest of a name, from BI on: its bytes are sent and summed, and SP1 is next with BI = 0. -/
theorem runs_names (g : Grp) (m : Nat) : ∀ s : State, accepts s = true → s.ph = phName → s.gi.toNat = g.val →
    s.bi.toNat + (m + 1) = (Config.desc g).nlen →
    ∃ w, Runs (List.replicate (m + 1) .name) s { s with
      tx := s.tx ++ (Config.desc g).name.drop s.bi.toNat
      wire := w
      acc := BitVec.ofNat 16 (s.acc.toNat + byteSum ((Config.desc g).name.drop s.bi.toNat))
      bi := 0
      ph := phSp1 } := by
  induction m with
  | zero =>
    intro s ha hp hg hb
    have hlt : s.bi.toNat < (Config.desc g).name.length := by show _ < (Config.desc g).nlen; omega
    have hget := List.getElem?_eq_getElem hlt
    have hd : (Config.desc g).name.drop s.bi.toNat = [nameByte s.gi s.bi] := by
      rw [drop_of_getElem? hget, nameByte_eq hg hget,
        List.drop_of_length_le (by show (Config.desc g).nlen ≤ _; omega)]
    refine ⟨(sendByte (nameByte s.gi s.bi) s).wire, ?_⟩
    have hf : fetch s = .name := by rw [fetch, hp]; rfl
    rw [show List.replicate (0 + 1) Instr.name = [fetch s] by rw [hf]; rfl]
    refine runs_accept ha (by simp [hp, phName]) (by simp [hp, phName]) ?_
    rw [acceptPhase_name hp, acceptName, nextInString,
      if_pos (by show s.bi.toNat + 1 = _; rw [nlenOf_eq hg]; omega), hd]
    refine (congrArg (Runs [] _) ?_).mp (runs_nil _)
    simp only [accAdd, sendByte]
    congr 1
  | succ m ih =>
    intro s ha hp hg hb
    have hlt : s.bi.toNat < (Config.desc g).name.length := by show _ < (Config.desc g).nlen; omega
    have hget := List.getElem?_eq_getElem hlt
    have hd : (Config.desc g).name.drop s.bi.toNat
        = nameByte s.gi s.bi :: (Config.desc g).name.drop (s.bi.toNat + 1) := by
      rw [drop_of_getElem? hget, nameByte_eq hg hget]
    have hn : (Config.desc g).nlen ≤ 8 := (by decide : ∀ g : Grp, (Config.desc g).nlen ≤ 8) g
    have hb1 : (s.bi + 1).toNat = s.bi.toNat + 1 := by rw [BitVec.toNat_add]; simp; omega
    have hf : fetch s = .name := by rw [fetch, hp]; rfl
    obtain ⟨w, hw⟩ := ih
      { accAdd (nameByte s.gi s.bi) (sendByte (nameByte s.gi s.bi) s) with bi := s.bi + 1 } ha hp hg
      (by show (s.bi + 1).toNat + _ = _; omega)
    refine ⟨w, ?_⟩
    rw [show List.replicate (m + 1 + 1) Instr.name = fetch s :: List.replicate (m + 1) .name by rw [hf]; rfl]
    refine runs_accept ha (by simp [hp, phName]) (by simp [hp, phName]) ?_
    rw [acceptPhase_name hp, acceptName, nextInString,
      if_neg (by show ¬ s.bi.toNat + 1 = _; rw [nlenOf_eq hg]; omega)]
    refine (congrArg (Runs _ _) ?_).mp hw
    simp only [accAdd, sendByte]
    rw [hb1, hd]
    congr 1
    · apply BitVec.eq_of_toNat_eq; simp; omega
    · simp

/-- The rest of a digit field, from BI on: its digits are sent and summed, and SP2 is next with BI = 0. -/
theorem runs_digits (g : Grp) (m : Nat) : ∀ s : State, accepts s = true → s.ph = phDig → s.gi.toNat = g.val →
    s.bi.toNat + (m + 1) = (Config.desc g).width →
    ∃ w, Runs (List.replicate (m + 1) .dig) s { s with
      tx := s.tx ++ (digits (s.cnt.get g).toNat (Config.desc g).width).drop s.bi.toNat
      wire := w
      acc := BitVec.ofNat 16
        (s.acc.toNat + byteSum ((digits (s.cnt.get g).toNat (Config.desc g).width).drop s.bi.toNat))
      bi := 0
      ph := phSp2 } := by
  induction m with
  | zero =>
    intro s ha hp hg hb
    have hlt : s.bi.toNat < (Config.desc g).width := by omega
    have hget := digits_getElem? (v := (s.cnt.get g).toNat) hlt
    have hd : (digits (s.cnt.get g).toNat (Config.desc g).width).drop s.bi.toNat
        = [digByte s.cnt s.gi s.bi] := by
      rw [drop_of_getElem? hget, digByte_eq hg hlt, List.drop_of_length_le (by simp; omega)]
    refine ⟨(sendByte (digByte s.cnt s.gi s.bi) s).wire, ?_⟩
    have hf : fetch s = .dig := by rw [fetch, hp]; rfl
    rw [show List.replicate (0 + 1) Instr.dig = [fetch s] by rw [hf]; rfl]
    refine runs_accept ha (by simp [hp, phDig]) (by simp [hp, phDig]) ?_
    rw [acceptPhase_dig hp, acceptDig, nextInString,
      if_pos (by show s.bi.toNat + 1 = _; rw [widthOf_eq hg]; omega), hd]
    refine (congrArg (Runs [] _) ?_).mp (runs_nil _)
    simp only [accAdd, sendByte]
    congr 1
  | succ m ih =>
    intro s ha hp hg hb
    have hlt : s.bi.toNat < (Config.desc g).width := by omega
    have hget := digits_getElem? (v := (s.cnt.get g).toNat) hlt
    have hd : (digits (s.cnt.get g).toNat (Config.desc g).width).drop s.bi.toNat
        = digByte s.cnt s.gi s.bi
          :: (digits (s.cnt.get g).toNat (Config.desc g).width).drop (s.bi.toNat + 1) := by
      rw [drop_of_getElem? hget, digByte_eq hg hlt]
    have hn : (Config.desc g).width ≤ 9 := (desc_wf g).2.2
    have hb1 : (s.bi + 1).toNat = s.bi.toNat + 1 := by rw [BitVec.toNat_add]; simp; omega
    have hf : fetch s = .dig := by rw [fetch, hp]; rfl
    obtain ⟨w, hw⟩ := ih
      { accAdd (digByte s.cnt s.gi s.bi) (sendByte (digByte s.cnt s.gi s.bi) s) with bi := s.bi + 1 } ha hp hg
      (by show (s.bi + 1).toNat + _ = _; omega)
    refine ⟨w, ?_⟩
    rw [show List.replicate (m + 1 + 1) Instr.dig = fetch s :: List.replicate (m + 1) .dig by rw [hf]; rfl]
    refine runs_accept ha (by simp [hp, phDig]) (by simp [hp, phDig]) ?_
    rw [acceptPhase_dig hp, acceptDig, nextInString,
      if_neg (by show ¬ s.bi.toNat + 1 = _; rw [widthOf_eq hg]; omega)]
    refine (congrArg (Runs _ _) ?_).mp hw
    simp only [accAdd, sendByte]
    rw [hb1, hd]
    congr 1
    · apply BitVec.eq_of_toNat_eq; simp; omega
    · simp

/-- At accepts, a run of emitting operations is a run of as many ACCEPTs. -/
theorem runs_eq_accepts {l : List Instr} (hl : ∀ i ∈ l, i.format = .ph4 ∧ i ≠ .idle ∧ i ≠ .adv) :
    ∀ {s t : State}, accepts s = true → Runs l s t → runOps (List.replicate l.length .accept) s = .next t := by
  induction l with
  | nil =>
    intro s t _ h
    simp only [Runs, List.length_nil, runSequencer, Prod.mk.injEq, true_and] at h
    exact h
  | cons i is ih =>
    intro s t ha h
    simp only [Runs, List.length_cons, runSequencer] at h
    cases he : exec (fetch s) s with
    | fault e => simp [he] at h
    | refused e => simp [he] at h
    | next u =>
      simp only [he, Prod.mk.injEq, List.cons.injEq] at h
      obtain ⟨⟨rfl, h1⟩, h2⟩ := h
      obtain ⟨hp, rfl⟩ := exec_fetch_eq_next.1 he
      obtain ⟨-, hi, hv⟩ := hl (fetch s) (by simp)
      have p0 : s.ph ≠ 0 := by intro h0; apply hi; rw [fetch, h0]; rfl
      have p10 : s.ph ≠ 10 := by intro h0; apply hv; rw [fetch, h0]; rfl
      have q0 : s.ph.toNat ≠ 0 := fun h => p0 (BitVec.eq_of_toNat_eq h)
      have q10 : s.ph.toNat ≠ 10 := fun h => p10 (BitVec.eq_of_toNat_eq h)
      have e : sequencerNext s = acceptPhase s := by
        rw [sequencerNext_emitting (by omega) (by omega), ha]; rfl
      have ha' : accepts (acceptPhase s) = true := by
        rw [← e]; simp only [accepts, State.input, (sequencerNext_keeps hp).1]; exact ha
      have hr : Runs is (acceptPhase s) t := by rw [← e]; exact Prod.ext h1 h2
      have := ih (fun i hi => hl i (by simp [hi])) ha' hr
      simpa [List.replicate_succ, runOps, exec, execAccept] using this

end Sys2Proof.Machine
end

