-- ==== Sys2Proof/Tests/Slice0.lean ====
section
/-! SUPPORT. The model's own tests. Expected values come from 95_test_vectors.md (V1, V3, V8 to V19) and from the
encoding tables of 30_encoding.md; the last part shows, for each obligation with hypotheses, states that meet them. -/

namespace Sys2Proof.Machine.Tests

open Sys2Proof

/-! ## Well-formedness -/

theorem test_wf_rejects_low_reserved_code : (Instr.phRsv12to15 11).wf = false := by decide
theorem test_wf_accepts_reserved_codes :
    (Instr.phRsv12to15 12).wf = true ∧ (Instr.phRsv12to15 15).wf = true := by decide
theorem test_wf_rejects_empty_name : (Descriptor.mk [] 3).wf = false := by decide
theorem test_wf_rejects_long_name : (Descriptor.mk (List.replicate 9 0x41) 3).wf = false := by decide
theorem test_wf_rejects_space_in_name : (Descriptor.mk [0x41, 0x20] 3).wf = false := by decide
theorem test_wf_rejects_delete_in_name : (Descriptor.mk [0x41, 0x7F] 3).wf = false := by decide
theorem test_wf_rejects_width_zero : (Descriptor.mk [0x41] 0).wf = false := by decide
theorem test_wf_rejects_width_ten : (Descriptor.mk [0x41] 10).wf = false := by decide
theorem test_wf_accepts_the_table : ∀ g : Grp, (Config.desc g).wf = true := by decide

/-! ## Decoding: one written-out code for every constructor (30_encoding.md rules R51, R53, R54, R55) -/

theorem test_decode_ck_hold : decode .ck2 [0b00] = .ok .ckHold [] := by decide
theorem test_decode_ck_clr : decode .ck2 [0b01] = .ok .ckClr [] := by decide
theorem test_decode_ck_add : decode .ck2 [0b10, 0x45] = .ok (.ckAdd 0x45) [] := by decide
theorem test_decode_ck_rsv : decode .ck2 [0b11] = .ok .ckRsv [] := by decide
theorem test_decode_idle : decode .ph4 [0b0000] = .ok .idle [] := by decide
theorem test_decode_stx : decode .ph4 [0b0001] = .ok .stx [] := by decide
theorem test_decode_lf : decode .ph4 [0b0010] = .ok .lf [] := by decide
theorem test_decode_name : decode .ph4 [0b0011] = .ok .name [] := by decide
theorem test_decode_sp1 : decode .ph4 [0b0100] = .ok .sp1 [] := by decide
theorem test_decode_dig : decode .ph4 [0b0101] = .ok .dig [] := by decide
theorem test_decode_sp2 : decode .ph4 [0b0110] = .ok .sp2 [] := by decide
theorem test_decode_chk : decode .ph4 [0b0111] = .ok .chk [] := by decide
theorem test_decode_cr : decode .ph4 [0b1000] = .ok .cr [] := by decide
theorem test_decode_etx : decode .ph4 [0b1001] = .ok .etx [] := by decide
theorem test_decode_adv : decode .ph4 [0b1010] = .ok .adv [] := by decide
theorem test_decode_ph_rsv11 : decode .ph4 [0b1011] = .ok .phRsv11 [] := by decide
theorem test_decode_ph_rsv12_15 : decode .ph4 [0b1101] = .ok (.phRsv12to15 13) [] := by decide
theorem test_decode_reset : decode .pin [0b1111] = .ok .reset [] := by decide
theorem test_decode_tick : decode .pin [0b0101] = .ok .tick [] := by decide
theorem test_decode_accept : decode .pin [0b0011] = .ok .accept [] := by decide

theorem test_decode_rejections :
    decode .ph4 [] = .reject .noBytes ∧ decode .ck2 [0b10] = .reject .noCkByte
    ∧ decode .ck2 [0x04] = .reject (.codeTooWide 0x04) ∧ decode .ph4 [0x10] = .reject (.codeTooWide 0x10)
    ∧ decode .pin [0b0001] = .reject (.noEvent 0b0001)
    ∧ decode .pin [0b0111] = .reject (.severalEvents 0b0111) := by decide

theorem test_table_words :
    decodeTableWord 8 0x5 = some .dig ∧ decodeTableWord 8 0xA = some .adv ∧ decodeTableWord 8 0xB = some .phRsv11
    ∧ decodeTableWord 2 0x1 = some .ckClr ∧ decodeTableWord 8 0x10 = none := by decide

/-! ## Single operations -/

/-- The reset state moved to a position, with a transport that is ready at the next edge. -/
def pos (ph : PhCode) (gi : GrpIdx) (bi : ByteIdx) (acc : AccWord) : State :=
  { State.reset with ph := ph, gi := gi, bi := bi, acc := acc, inputs := [readyEdge] }

/-- What the tests look at after an operation: TX, ACC, BI and the STATUS word. -/
def seen (r : Result) : Option (List Byte × AccWord × ByteIdx × StatusWord) :=
  match r with
  | .next s => some (s.tx, s.acc, s.bi, status s)
  | _ => none

/-- The five counters after an operation. -/
def counters (r : Result) : Option (List Nat) :=
  match r with
  | .next s => some [s.cnt.base.toNat, s.cnt.hchc.toNat, s.cnt.hchp.toNat, s.cnt.iinst.toNat, s.cnt.papp.toNat]
  | _ => none

/-- TICKQ and TLOST after an operation. -/
def queue (r : Result) : Option (Nat × Bool) :=
  match r with
  | .next s => some (s.tickq, s.tlost)
  | _ => none

/-- The phase and GI after an operation. -/
def place (r : Result) : Option (Nat × Nat) :=
  match r with
  | .next s => some (s.ph.toNat, s.gi.toNat)
  | _ => none

/-- V13 -/
theorem test_ck_hold : seen (exec .ckHold (pos 0 0 0 0x02EB)) = some ([], 0x02EB, 0, 0) := by decide
theorem test_ck_clr : seen (exec .ckClr (pos 0 0 0 0x02EB)) = some ([], 0, 0, 0) := by decide
theorem test_ck_add : seen (exec (.ckAdd 0x45) (pos 0 0 0 0x00D6)) = some ([], 0x011B, 0, 0) := by decide
theorem test_ck_add_wraps : seen (exec (.ckAdd 0x7E) (pos 0 0 0 0xFFC0)) = some ([], 0x003E, 0, 0) := by decide
theorem test_ck_rsv : seen (exec .ckRsv (pos 0 0 0 0x0123)) = some ([], 0x0123, 0, 0) := by decide

/-- V17 -/
theorem test_idle_waits : seen (exec .idle (pos 0 0 0 0x02EB)) = some ([], 0x02EB, 0, 0x0000) := by decide
theorem test_idle_takes_tick : seen (exec .idle { pos 0 0 0 0 with tickq := 2 }) = some ([], 0, 0, 0x4081) := by
  decide
theorem test_stx : seen (exec .stx (pos 1 0 0 0x0253)) = some ([0x02], 0x0253, 0, 0x0082) := by decide
theorem test_lf : seen (exec .lf (pos 2 1 0 0x02EB)) = some ([0x0A], 0, 0, 0x0093) := by decide
theorem test_name_first : seen (exec .name (pos 3 0 0 0)) = some ([0x42], 0x0042, 1, 0x0083) := by decide
theorem test_name_last : seen (exec .name (pos 3 3 4 0x0133)) = some ([0x54], 0x0187, 0, 0x00B4) := by decide
theorem test_sp1 : seen (exec .sp1 (pos 4 0 0 0x011B)) = some ([0x20], 0x013B, 0, 0x0085) := by decide
theorem test_dig_middle : seen (exec .dig (pos 5 3 1 0x01D8)) = some ([0x32], 0x020A, 2, 0x00B5) := by decide
theorem test_dig_last : seen (exec .dig (pos 5 0 8 0x02BB)) = some ([0x30], 0x02EB, 0, 0x0086) := by decide
theorem test_sp2 : seen (exec .sp2 (pos 6 0 0 0x02EB)) = some ([0x20], 0x02EB, 0, 0x0087) := by decide
theorem test_chk : seen (exec .chk (pos 7 0 0 0x02EB)) = some ([0x4B], 0x02EB, 0, 0x0088) := by decide
theorem test_chk_space : seen (exec .chk (pos 7 2 0 0x0300)) = some ([0x20], 0x0300, 0, 0x00A8) := by decide
theorem test_cr_next_group : seen (exec .cr (pos 8 3 0 0)) = some ([0x0D], 0, 0, 0x00C2) := by decide
theorem test_cr_last_group : seen (exec .cr (pos 8 4 0 0)) = some ([0x0D], 0, 0, 0x0089) := by decide
theorem test_etx : seen (exec .etx (pos 9 0 0 0x0253)) = some ([0x03], 0x0253, 0, 0x008A) := by decide

/-- V17: the first wrap, and all five at once. -/
theorem test_adv_iinst_wraps :
    counters (exec .adv { pos 10 0 0 0 with
      cnt := { base := 879, hchc := 1990, hchp := 3101, iinst := 999, papp := 17133 } })
      = some [880, 1991, 3102, 0, 17134]
    ∧ seen (exec .adv { pos 10 0 0 0 with
      cnt := { base := 879, hchc := 1990, hchp := 3101, iinst := 999, papp := 17133 } })
      = some ([], 0, 0, 0x0800) := by decide
theorem test_adv_keeps_old_flags :
    seen (exec .adv { pos 10 0 0 0 with
      cnt := { base := 5, hchc := 5, hchp := 5, iinst := 5, papp := 99999 }, ovf := 0b01000 })
      = some ([], 0, 0, 0x1800) := by decide

theorem test_stall : seen (exec .stx { pos 1 0 0 0 with inputs := [] }) = some ([], 0, 0, 0x0081) := by decide

/-- 30_encoding.md rule R54 -/
theorem test_reserved_stop :
    exec .phRsv11 State.reset = .fault (.reservedPhase 11)
    ∧ exec (.phRsv12to15 15) State.reset = .fault (.reservedPhase 15) := ⟨rfl, rfl⟩

/-- V18 -/
theorem test_reset :
    counters (exec .reset { pos 5 3 1 0x01D8 with
      cnt := { base := 5, hchc := 5, hchp := 5, iinst := 999, papp := 5 }, ovf := 0b01000, tlost := true, tx := [2] })
      = some [0, 1111, 2222, 120, 16254]
    ∧ seen (exec .reset { pos 5 3 1 0x01D8 with ovf := 0b01000, tlost := true, tx := [2] })
      = some ([2], 0, 0, 0) := by decide
theorem test_tick_waits : seen (exec .tick (pos 5 2 4 0)) = some ([], 0, 4, 0x40A5) := by decide
theorem test_tick_lost (h : Config.tickqMax = 1) :
    seen (exec .tick { pos 2 0 0 0 with tickq := 1 }) = some ([], 0, 0, 0x6082) := by
  simp only [exec, execTick, queueTick, h]; decide
theorem test_accept : seen (exec .accept (pos 7 0 0 0x02EB)) = some ([0x4B], 0x02EB, 0, 0x0088) := by decide
theorem test_accept_ignored_in_idle : seen (exec .accept (pos 0 0 0 7)) = some ([], 7, 0, 0) := by decide

/-- V18: the tick at the edge of the IDLE step. -/
theorem test_step_tick_at_idle_edge (h : Config.tickqMax = 1) :
    queue (step { State.reset with
      tickq := 1, inputs := [{ rst := false, tick := true, txReady := false, delivers := false }] })
      = some (1, false) := by
  simp only [step, clockEdge, fetch, exec, execIdle, execTick, queueTick, h]; decide

/-- V18: ACCEPT and RESET at one edge. -/
theorem test_step_reset_wins :
    seen (step { pos 1 0 0 9 with inputs := [{ rst := true, tick := true, txReady := true, delivers := true }] })
      = some ([], 0, 0, 0) := by decide

/-- 10_state.md rule R23, 20_memory.md rule R33: the placed operation is the one the step runs. -/
theorem test_step_runs_placed_word : seen (step (State.reset.withFetchWord 8 0x1)) = some ([0x02], 0, 0, 0x0082) := by
  decide

/-! ## Functions -/

/-- V19 -/
theorem test_status_all_fields :
    status { State.reset with ph := 8, gi := 4, ovf := 0b01000, tlost := true } = 0x28C8
    ∧ status { State.reset with ph := 7, gi := 2, tickq := 1 } = 0x40A7
    ∧ status { State.reset with ovf := 0b11111, tlost := true, tickq := 1 } = 0x7F00 := by decide

/-- V14 -/
theorem test_chk_function :
    chkOf 0x0000 = 0x20 ∧ chkOf 0x003F = 0x5F ∧ chkOf 0x0040 = 0x20 ∧ chkOf 0x02EB = 0x4B ∧ chkOf 0xFFFF = 0x5F := by
  decide

/-- V15 -/
theorem test_dec :
    dec 7 3 = some [0x30, 0x30, 0x37]
    ∧ dec 123456789 9 = some [0x31, 0x32, 0x33, 0x34, 0x35, 0x36, 0x37, 0x38, 0x39]
    ∧ dec 1000 3 = none ∧ dec 1000000000 9 = none := by decide

/-- V3, V16 -/
theorem test_group :
    group [0x49, 0x49, 0x4E, 0x53, 0x54] 120 3
      = some [0x0A, 0x49, 0x49, 0x4E, 0x53, 0x54, 0x20, 0x31, 0x32, 0x30, 0x20, 0x5A, 0x0D]
    ∧ group [0x41] 5 1 = some [0x0A, 0x41, 0x20, 0x35, 0x20, 0x36, 0x0D]
    ∧ group [0x41] 10 1 = none := by decide

/-! ## The hypotheses of the obligations can be met -/

/-- An edge with the given pins; what is accepted at it is delivered. -/
def edgeOf (rst tick txReady : Bool) : EdgeInput :=
  { rst := rst, tick := tick, txReady := txReady, delivers := true }

theorem ranges_init : CountersInRange Config.init := by
  unfold CountersInRange; decide
theorem ranges_zero : CountersInRange { base := 0, hchc := 0, hchp := 0, iinst := 0, papp := 0 } := by
  unfold CountersInRange; decide
theorem ranges_full :
    CountersInRange
      { base := 999999999, hchc := 999999999, hchp := 999999999, iinst := 999, papp := 99999 } := by
  unfold CountersInRange; decide

/-- A step at a legal phase gives a next state: the last hypothesis of most rules of the machine. -/
theorem next_of_legal {s : State} (h : s.input.rst = false) (hp : s.ph.toNat ≤ 10) : ∃ t, step s = .next t :=
  ⟨_, step_legal h hp⟩

theorem met_ResetEdgeWinsOverEverything :
    ({ pos 13 7 15 5 with inputs := [edgeOf true true true] } : State).input.rst = true := rfl

theorem met_EngineComputesTheChecksumInAnyOrder : ([0x41, 0x42] : List Byte).Perm [0x42, 0x41] :=
  List.Perm.swap 0x42 0x41 []

/-- 41 at BASE 0 to 1, and the decimal carry of BASE 9 to BASE 10. -/
theorem met_ChecksumIncrementLaw :
    (byteSum [0x31] : Int) = byteSum [0x30] + 1 ∧ (byteSum [0x31, 0x30] : Int) = byteSum [0x30, 0x39] + (-8) := by
  decide

theorem met_EnginePerformsWhatTheFramerDrives :
    ∀ p ∈ [phLf, phName, phSp1, phDig, phIdle, phAdv],
      (pos p 0 0 0).input.rst = false ∧ ∃ t, step (pos p 0 0 0) = .next t := by
  have h : ∀ p ∈ [phLf, phName, phSp1, phDig, phIdle, phAdv], p.toNat ≤ 10 := by decide
  exact fun p hp => ⟨rfl, next_of_legal rfl (h p hp)⟩

theorem met_DecGivesPaddedDigitsOrRefuses :
    (1 ≤ 1 ∧ 1 ≤ 9 ∧ 9 < 10 ^ 1 ∧ 10 ^ 1 ≤ 10) ∧ (1 ≤ 9 ∧ 9 ≤ 9 ∧ 999999999 < 10 ^ 9 ∧ 10 ^ 9 ≤ 1000000000) := by
  decide

theorem met_DataGroupFormat :
    ([0x41] : List Byte) ≠ [] ∧ 1 ≤ 1 ∧ 1 ≤ 9 ∧ 9 < 10 ^ 1 ∧ 10 ^ 1 ≤ 10 := by decide

theorem met_FrameFormat :
    CountersInRange Config.init
    ∧ CountersInRange { base := 0, hchc := 0, hchp := 0, iinst := 0, papp := 0 } :=
  ⟨ranges_init, ranges_zero⟩

theorem met_FrameAlphabet : ∃ f, CountersInRange Config.init ∧ frame Config.init = some f :=
  ⟨_, ranges_init, frame_eq ranges_init⟩

theorem met_IdleTakesAPendingTick :
    0 < ({ State.reset with tickq := 1 } : State).tickq ∧ State.reset.tickq = 0 := by decide

/-- One transport for StxAndEtxAtTheAccept, LfAtTheAccept, NameCompletesAtAnyIndices, Sp1AtTheAccept,
DigCompletesAtAnyIndices, Sp2AndChkAtTheAccept and CrCompletesAtAnyIndex. -/
theorem met_AtTheAccept (p : PhCode) (g : GrpIdx) (b : ByteIdx) :
    (pos p g b 0).input.txReady = true ∧ (pos p g b 0).input.rst = false := ⟨rfl, rfl⟩

/-- NameAtTheAccept at the first and at the last byte of a name. -/
theorem met_NameAtTheAccept :
    ((pos phName 0 0 0).gi.toNat = (0 : Grp).val ∧ (pos phName 0 0 0).bi.toNat < (Config.desc 0).nlen)
    ∧ (pos phName 3 4 0).gi.toNat = (3 : Grp).val ∧ (pos phName 3 4 0).bi.toNat < (Config.desc 3).nlen
      ∧ (pos phName 3 4 0).input.txReady = true ∧ (pos phName 3 4 0).input.rst = false := by decide

/-- DigAtTheAccept at the last digit of PAPP = 16254. -/
theorem met_DigAtTheAccept :
    (pos phDig 4 4 0).input.txReady = true ∧ (pos phDig 4 4 0).input.rst = false
    ∧ (pos phDig 4 4 0).gi.toNat = (4 : Grp).val ∧ 5 = (Config.desc 4).width ∧ (pos phDig 4 4 0).bi.toNat < 5
    ∧ ((pos phDig 4 4 0).cnt.get 4).toNat < 10 ^ 5
    ∧ (0x34 : Byte)
        = BitVec.ofNat 8 (0x30 + (((pos phDig 4 4 0).cnt.get 4).toNat / 10 ^ (5 - 1 - 4)) % 10) := by decide

/-- CrAtTheAccept at the first and at the last group. -/
theorem met_CrAtTheAccept :
    (pos phCr 0 0 0).gi.toNat ≤ 4 ∧ (pos phCr 4 0 0).gi.toNat ≤ 4 ∧ (pos phCr 4 0 0).input.txReady = true
    ∧ (pos phCr 4 0 0).input.rst = false := by decide

/-- The clauses of NameCompletesAtAnyIndices and DigCompletesAtAnyIndices at the last place of a string. -/
theorem met_CompletesAtAnyIndices :
    (pos phName 3 4 0).gi.toNat = (3 : Grp).val
    ∧ (Config.desc 3).name[(pos phName 3 4 0).bi.toNat]? = some 0x54
    ∧ (pos phDig 4 4 0).gi.toNat = (4 : Grp).val
    ∧ (pos phDig 4 4 0).bi.toNat < (Config.desc 4).width := by decide

/-- Both clauses: a counter at its capacity and one below it. -/
theorem met_AdvAdvancesAllCountersAtOnce :
    CountersInRange { base := 0, hchc := 0, hchp := 0, iinst := 999, papp := 0 }
    ∧ (Counters.get { base := 0, hchc := 0, hchp := 0, iinst := 999, papp := 0 } 0).toNat
        ≠ 10 ^ (Config.desc 0).width - 1
    ∧ (Counters.get { base := 0, hchc := 0, hchp := 0, iinst := 999, papp := 0 } 3).toNat
        = 10 ^ (Config.desc 3).width - 1
    ∧ CountersInRange { base := 999999999, hchc := 999999999, hchp := 999999999, iinst := 999, papp := 99999 } :=
  ⟨by unfold CountersInRange; decide, by decide, by decide, ranges_full⟩

theorem met_ReservedPhaseCodesStop :
    (11 ≤ (pos 11 0 0 0).ph.toNat ∧ (pos 11 0 0 0).input.rst = false)
    ∧ 11 ≤ (pos 15 0 0 0).ph.toNat ∧ (pos 15 0 0 0).input.rst = false := by decide

theorem met_TickQueuesOrIsLost :
    State.reset.tickq < Config.tickqMax
    ∧ Config.tickqMax ≤ ({ State.reset with tickq := Config.tickqMax } : State).tickq :=
  ⟨Nat.succ_pos _, Nat.le_refl _⟩

theorem met_AcceptPerformsTheEmittingPhase :
    (1 ≤ (pos phStx 0 0 0).ph.toNat ∧ (pos phStx 0 0 0).ph.toNat ≤ 9 ∧ (pos phStx 0 0 0).input.txReady = true
      ∧ (pos phStx 0 0 0).input.rst = false)
    ∧ (1 ≤ (pos phEtx 0 0 0).ph.toNat ∧ (pos phEtx 0 0 0).ph.toNat ≤ 9)
    ∧ (pos 0 0 0 0).ph = 0 ∧ 10 ≤ (pos phAdv 0 0 0).ph.toNat := by decide

theorem met_EmittingPhasesWaitForTheAccept :
    (Instr.dig ∈ [Instr.stx, .lf, .name, .sp1, .dig, .sp2, .chk, .cr, .etx])
    ∧ State.reset.input.txReady = false
    ∧ ({ State.reset with inputs := [edgeOf true false true] } : State).input.rst = true := by decide

theorem met_BothWaitsKeepTheState :
    (({ pos phStx 0 0 0 with inputs := [] } : State).input.rst = false
      ∧ ({ pos phStx 0 0 0 with inputs := [] } : State).input.tick = false
      ∧ txValid { pos phStx 0 0 0 with inputs := [] } = true
      ∧ ({ pos phStx 0 0 0 with inputs := [] } : State).input.txReady = false)
    ∧ State.reset.input.rst = false ∧ State.reset.input.tick = false ∧ State.reset.ph = 0
      ∧ State.reset.tickq = 0 := by decide

theorem met_StepRunsTheDecodedOperation :
    decode .ph4 [(pos phDig 0 0 0).ph.setWidth 8] = .ok .dig [] ∧ Instr.dig.wf = true
    ∧ (pos phDig 0 0 0).input.rst = false ∧ (pos phDig 0 0 0).input.tick = false
    ∧ ∃ t, exec .dig (pos phDig 0 0 0) = .next t :=
  ⟨by decide, rfl, rfl, rfl, acceptDig (pos phDig 0 0 0), rfl⟩

theorem met_StepRunsTheDecodedOperation_with_tick :
    ∃ s t u : State, decode .ph4 [s.ph.setWidth 8] = .ok .stx [] ∧ Instr.stx.wf = true ∧ s.input.rst = false
      ∧ exec .stx s = .next t ∧ s.input.tick = true ∧ exec .tick t = .next u :=
  ⟨{ pos phStx 0 0 0 with inputs := [edgeOf false true true] },
    acceptStx { pos phStx 0 0 0 with inputs := [edgeOf false true true] }, _, by decide, rfl, rfl, rfl, rfl, rfl⟩

theorem met_StepRunsTheDecodedOperation_with_fault :
    decode .ph4 [(pos 12 0 0 0).ph.setWidth 8] = .ok (.phRsv12to15 12) [] ∧ (Instr.phRsv12to15 12).wf = true
    ∧ (pos 12 0 0 0).input.rst = false
    ∧ exec (.phRsv12to15 12) (pos 12 0 0 0) = .fault (.reservedPhase 12) :=
  ⟨by decide, by decide, rfl, rfl⟩

theorem met_AnEdgePerformsTheEventsOfItsPins :
    (pos phStx 0 0 0).input.rst = false ∧ 1 ≤ (pos phStx 0 0 0).ph.toNat ∧ (pos phStx 0 0 0).ph.toNat ≤ 9
    ∧ (pos phEtx 0 0 0).ph.toNat = 9 ∧ (pos 0 0 0 0).ph = 0 ∧ (pos phAdv 0 0 0).ph = 10
    ∧ ({ State.reset with inputs := [edgeOf true true true] } : State).input.rst = true := by decide

theorem met_TickAtTheIdleEdgeIsKept :
    ∃ s : State, s.ph = 0 ∧ s.tickq = Config.tickqMax ∧ s.input.rst = false ∧ s.input.tick = true :=
  ⟨{ State.reset with tickq := Config.tickqMax, inputs := [edgeOf false true false] }, rfl, rfl, rfl, rfl⟩

theorem met_TickPinTouchesOnlyTheQueue :
    (edgeOf false false true).rst = false
    ∧ ∃ t, step { pos phStx 0 0 0 with inputs := { edgeOf false false true with tick := false } :: [] } = .next t :=
  ⟨rfl, next_of_legal rfl (by decide)⟩

theorem met_FlagsStayUntilReset :
    ∃ s t : State, s.input.rst = false ∧ step s = .next t ∧ s.ovf.getLsbD (3 : Grp).val = true ∧ s.tlost = true
      ∧ s.ph ≠ phAdv ∧ s.input.tick = false :=
  ⟨{ pos phLf 0 0 0 with ovf := 0b01000, tlost := true }, _, rfl, step_legal rfl (by decide), by decide, rfl,
    by decide, rfl⟩

theorem met_FlagsInfluenceNothing :
    AgreeButFlags (pos phStx 0 0 0) { pos phStx 0 0 0 with ovf := 0b11111, tlost := true }
    ∧ ∃ t, step (pos phStx 0 0 0) = .next t := ⟨rfl, next_of_legal rfl (by decide)⟩

theorem met_DeliveryIsInvisibleToTheBlock :
    AgreeButDelivery (pos phStx 0 0 0)
      { pos phStx 0 0 0 with wire := [0x55], inputs := [{ readyEdge with delivers := false }] }
    ∧ ∃ t, step (pos phStx 0 0 0) = .next t := ⟨⟨rfl, rfl⟩, next_of_legal rfl (by decide)⟩

theorem met_WireStaysASubsequenceOfTx :
    ∃ s t : State, WireOk s ∧ step s = .next t :=
  ⟨{ pos phLf 0 0 0 with tx := [0x02], wire := [] }, _, List.nil_sublist _, step_legal rfl (by decide)⟩

theorem met_CountersChangeOnlyInAdv :
    (pos phEtx 0 0 0).input.rst = false ∧ (pos phEtx 0 0 0).ph ≠ phAdv ∧ ∃ t, step (pos phEtx 0 0 0) = .next t :=
  ⟨rfl, by decide, next_of_legal rfl (by decide)⟩

theorem met_StreamGrowsOnlyByAcceptedBytes :
    (txValid (pos phChk 0 0 0) = true ∧ (pos phChk 0 0 0).input.txReady = true
      ∧ (pos phChk 0 0 0).input.rst = false ∧ ∃ t, step (pos phChk 0 0 0) = .next t)
    ∧ (txValid (pos phAdv 0 0 0) = false ∧ ∃ t, step (pos phAdv 0 0 0) = .next t)
    ∧ ∃ t, step { pos phChk 0 0 0 with inputs := [edgeOf true false true] } = .next t :=
  ⟨⟨rfl, rfl, rfl, next_of_legal rfl (by decide)⟩, ⟨rfl, next_of_legal rfl (by decide)⟩, _, step_reset rfl⟩

theorem met_FramesNeverOverlap :
    (∃ s t : State, s.input.rst = false ∧ step s = .next t ∧ t.ph = phStx)
    ∧ ∃ s t : State, s.input.rst = false ∧ step s = .next t ∧ t.ph = phIdle :=
  ⟨⟨{ State.reset with tickq := 1 }, _, rfl, step_legal rfl (by decide), by decide⟩,
    ⟨pos phAdv 0 0 0, _, rfl, step_legal rfl (by decide), by decide⟩⟩

/-- A state in the middle of the first group, at its checksum byte (95_test_vectors.md P1, step 19). -/
theorem chk_blockOk : BlockOk (pos phChk 0 0 0x02EB) where
  position := by unfold PositionOk; decide
  counters := ranges_init
  queue := Nat.zero_le _
  acc := by unfold AccOk; decide

theorem met_OfferedBytesFitSevenBits :
    BlockOk (pos phChk 0 0 0x02EB) ∧ txValid (pos phChk 0 0 0x02EB) = true := ⟨chk_blockOk, rfl⟩

theorem met_NoStepFaultsAtALegalPosition : PositionOk (pos phChk 0 0 0x02EB) := chk_blockOk.position

theorem met_AcceptsEmitAWholeGroup :
    ∀ g : Grp, g = 0 ∨ g = 4 → (pos phLf (BitVec.ofNat 3 g.val) 0 0xFFFF).ph = phLf
      ∧ (pos phLf (BitVec.ofNat 3 g.val) 0 0xFFFF).gi.toNat = g.val
      ∧ (pos phLf (BitVec.ofNat 3 g.val) 0 0xFFFF).bi = 0
      ∧ ((pos phLf (BitVec.ofNat 3 g.val) 0 0xFFFF).cnt.get g).toNat < 10 ^ (Config.desc g).width := by decide

theorem met_SequencerEmitsAWholeFrame :
    ∃ s : State, s.ph = phIdle ∧ s.gi = 0 ∧ s.bi = 0 ∧ 0 < s.tickq ∧ CountersInRange s.cnt
      ∧ s.input.txReady = true ∧ s.input.rst = false :=
  ⟨{ pos phIdle 0 0 0 with tickq := 1 }, rfl, rfl, rfl, by decide, ranges_init, rfl, rfl⟩

theorem met_BlockInvariantIsKept :
    BlockOk (pos phChk 0 0 0x02EB) ∧ ∃ t, step (pos phChk 0 0 0x02EB) = .next t :=
  ⟨chk_blockOk, next_of_legal rfl (by decide)⟩

/-- The state after the first byte of the first frame (95_test_vectors.md P1, step 2), one byte having been accepted
before the RESET. -/
theorem met_StreamInvariantIsKept :
    ∃ (before : List Byte) (s t : State), BlockOk s ∧ StreamOk before s ∧ s.input.rst = false ∧ step s = .next t := by
  refine ⟨[0x55], { pos phLf 0 0 0 with tx := [0x55, 0x02] }, _, ⟨?_, ranges_init, Nat.zero_le _, ?_⟩, ?_, rfl,
    step_legal rfl (by decide)⟩
  · unfold PositionOk; decide
  · unfold AccOk; decide
  · exact ⟨[], _, 0, rfl, rfl, frame_eq ranges_init, rfl, by decide⟩

theorem met_StreamInvariantIsKept_at_reset_edge :
    ∃ s t : State, s.input.rst = true ∧ step s = .next t :=
  ⟨{ pos 13 7 0 0 with tx := [0x02], inputs := [edgeOf true false true] }, _, rfl, step_reset rfl⟩

theorem met_StreamInvariantHoldsAtReset :
    ∃ s t : State, exec .reset s = .next t := ⟨pos phDig 3 1 0x01D8, _, rfl⟩

theorem met_DecodeGivesBackEveryEncodedOperation :
    (Instr.phRsv12to15 12).wf = true ∧ (Instr.phRsv12to15 15).wf = true ∧ (Instr.ckAdd 0xFF).wf = true := by decide

theorem met_DecodedCodesEncodeBack :
    Format.ck2 ≠ .pin ∧ decode .ck2 [0b10, 0xFF, 0x00] = .ok (.ckAdd 0xFF) [0x00]
    ∧ Format.ph4 ≠ .pin ∧ decode .ph4 [0b1111, 0x00] = .ok (.phRsv12to15 15) [0x00] := by decide

end Sys2Proof.Machine.Tests
end

section
/-! A step as the operation PH decodes to (00_scope.md rule R4, 30_encoding.md rule R51). -/

namespace Sys2Proof.Machine

/-- Every phase code, written as a byte, decodes to the operation PH selects. -/
theorem decode_ph4_phase (p : PhCode) : decode .ph4 [p.setWidth 8] = .ok (decodePhase p) [] := by
  have hfits : (p.setWidth 8).toNat < 16 := by
    rw [BitVec.toNat_setWidth_of_le (by decide)]
    exact p.isLt
  have hback : (p.setWidth 8).setWidth 4 = p := by
    rw [BitVec.setWidth_setWidth_of_le p (by decide), BitVec.setWidth_eq]
  show decodePh4 (p.setWidth 8) [] = _
  rw [decodePh4, if_neg (by omega), hback]

/-- What PH decodes to is what the sequencer fetches. -/
theorem fetch_eq_of_decode {s : State} {i : Instr} {rest : List Byte}
    (h : decode .ph4 [s.ph.setWidth 8] = .ok i rest) : fetch s = i := by
  rw [decode_ph4_phase] at h
  exact (Decoded.ok.inj h).1

/-- Without RESET an edge is the fetched operation, then the TICK if asked for, then the passing of the edge. -/
theorem step_of_not_reset {s : State} (h : s.input.rst = false) :
    step s = andThen (andThen (exec (fetch s) s) (tickAtEdge s.input.tick)) (fun t => .next (passEdge t)) := by
  simp [step, clockEdge, h]

/-- Settles O33: PH's decoding is the fetch, and the step sequences the fetched operation, the TICK and the edge. -/
theorem stepRunsTheDecodedOperation : Obligations.StepRunsTheDecodedOperation := by
  intro s i rest hdec _ hrst
  obtain rfl := fetch_eq_of_decode hdec
  rw [step_of_not_reset hrst]
  refine ⟨?noTick, ?tick, ?fault⟩
  case noTick =>
    intro t hexec hasked
    rw [hexec, hasked]
    rfl
  case tick =>
    intro t u hexec hasked htick
    rw [hexec, hasked, andThen_next, tickAtEdge, if_pos rfl, htick]
    rfl
  case fault =>
    intro e hexec
    rw [hexec, andThen_fault, andThen_fault]

end Sys2Proof.Machine
end

section
/-! What the sequencer's operation does to the counters, OVF and the tick queue (10_state.md rules R13, R17, R18). -/

namespace Sys2Proof.Machine

section Sequencer
variable {s : State} (h : s.ph.toNat ≤ 10)
include h

/-- Counters and OVF move in ADV alone (10_state.md rules R13 and R18). -/
theorem sequencerNext_keeps_cnt_ovf (hadv : s.ph ≠ phAdv) :
    (sequencerNext s).cnt = s.cnt ∧ (sequencerNext s).ovf = s.ovf := by
  rcases sequencer_cases h with ⟨-, -, e⟩ | ⟨-, -, e⟩ | ⟨h10, -⟩ | ⟨-, -, -, e⟩ | ⟨-, -, -, e, b, -, -, e'⟩
  · rw [e]; exact ⟨rfl, rfl⟩
  · rw [e]; exact ⟨rfl, rfl⟩
  · exact absurd h10 hadv
  · rw [e]; exact ⟨rfl, rfl⟩
  · rw [e, e']; exact ⟨rfl, rfl⟩

/-- The sequencer adds no tick: IDLE may take one, the other operations leave the queue. -/
theorem sequencerNext_tickq_le : (sequencerNext s).tickq ≤ s.tickq := by
  rcases sequencer_cases h with ⟨-, -, e⟩ | ⟨-, -, e⟩ | ⟨-, e⟩ | ⟨-, -, -, e⟩ | ⟨-, -, -, e, b, -, -, e'⟩
  · rw [e]
  · rw [e, takeTick_tickq]; exact Nat.sub_le _ _
  · rw [e, returnToIdle_tickq, advanceCounters_tickq]
  · rw [e]
  · rw [e, e']; exact Nat.le_refl _

/-- ADV keeps the counters in range, and nothing else moves them (10_state.md rule R11). -/
theorem countersInRange_sequencerNext (hc : CountersInRange s.cnt) : CountersInRange (sequencerNext s).cnt := by
  by_cases hadv : s.ph = phAdv
  · intro g
    rw [sequencerNext_adv hadv, returnToIdle_cnt, advanceCounters_cnt, bumpAll_get, bump_toNat (hc g)]
    exact Nat.mod_lt _ (capacity_pos g)
  · rwa [(sequencerNext_keeps_cnt_ovf h hadv).1]

end Sequencer

/-- A step without RESET is made at a legal phase and is the edge around the sequencer's operation. -/
theorem eq_edgeNext_of_step {s t : State} (hr : s.input.rst = false) (h : step s = .next t) :
    s.ph.toNat ≤ 10 ∧ t = edgeNext s := by
  rcases step_cases h with ⟨hr', -⟩ | ⟨-, hp, ht⟩
  · exact absurd (hr.symm.trans hr') (by decide)
  · exact ⟨hp, ht⟩

end Sys2Proof.Machine
end

section
/-! The position invariant (10_state.md rule R15): where each phase may stand, and that every operation keeps it. -/

namespace Sys2Proof.Machine

/-- A position outside the groups: GI and BI are 0. -/
theorem positionOk_framing {s : State} (hp : s.ph ∈ [phIdle, phStx, phEtx, phAdv]) (hg : s.gi = 0) (hb : s.bi = 0) :
    PositionOk s := by
  obtain ⟨hle, hname, hdig⟩ :=
    (by decide : ∀ p ∈ [phIdle, phStx, phEtx, phAdv], p.toNat ≤ 10 ∧ p ≠ phName ∧ p ≠ phDig) _ hp
  exact ⟨hle, by rw [hg]; decide, fun _ => hg, fun _ _ => hb, fun e => absurd e hname, fun e => absurd e hdig⟩

/-- A position at a group's single bytes: the group exists and BI is 0. -/
theorem positionOk_single {s : State} (hp : s.ph ∈ [phLf, phSp1, phSp2, phChk, phCr]) (hg : s.gi.toNat ≤ 4)
    (hb : s.bi = 0) : PositionOk s := by
  obtain ⟨hle, hframing, hname, hdig⟩ := (by decide : ∀ p ∈ [phLf, phSp1, phSp2, phChk, phCr],
    p.toNat ≤ 10 ∧ ¬(p = phIdle ∨ p = phStx ∨ p = phEtx ∨ p = phAdv) ∧ p ≠ phName ∧ p ≠ phDig) _ hp
  exact ⟨hle, hg, fun e => absurd e hframing, fun _ _ => hb, fun e => absurd e hname, fun e => absurd e hdig⟩

/-- A position in a name. -/
theorem positionOk_name {s : State} (hp : s.ph = phName) (hg : s.gi.toNat ≤ 4) (hb : s.bi.toNat < nlenOf s.gi) :
    PositionOk s := by
  simp [PositionOk, hp, hg, hb, phIdle, phStx, phName, phDig, phEtx, phAdv]

/-- A position in a digit field. -/
theorem positionOk_dig {s : State} (hp : s.ph = phDig) (hg : s.gi.toNat ≤ 4) (hb : s.bi.toNat < widthOf s.gi) :
    PositionOk s := by
  simp [PositionOk, hp, hg, hb, phIdle, phStx, phName, phDig, phEtx, phAdv]

/-- The next place in a string: `after` with BI = 0 past the last byte, the next BI before it. -/
theorem nextInString_cases (P : State → Prop) {len : Nat} {after : PhCode} {s : State}
    (last : s.bi.toNat + 1 = len → P { s with bi := 0, ph := after })
    (more : s.bi.toNat + 1 ≠ len → P { s with bi := s.bi + 1 }) : P (nextInString len after s) := by
  unfold nextInString
  split
  · next h => exact last h
  · next h => exact more h

/-- The next group: ETX with GI = 0 past the last one, LF of the next GI before it. -/
theorem nextGroup_cases (P : State → Prop) {s : State} (last : s.gi = 4 → P { s with gi := 0, ph := phEtx })
    (more : s.gi ≠ 4 → P { s with gi := s.gi + 1, ph := phLf }) : P (nextGroup s) := by
  unfold nextGroup
  split
  · next h => exact last h
  · next h => exact more h

/-- The group after a group that is not the last one exists. -/
theorem grpIdx_succ_le {gi : GrpIdx} (h : gi.toNat ≤ 4) (hlast : gi ≠ 4) : (gi + 1).toNat ≤ 4 := by
  revert gi
  decide

/-- BI does not wrap inside a string of at most 9 bytes (10_state.md rule R14). -/
theorem byteIdx_succ_toNat {b : ByteIdx} {n : Nat} (h : b.toNat < n) (hn : n ≤ 9) :
    (b + 1).toNat = b.toNat + 1 := by
  rw [BitVec.toNat_add]
  exact Nat.mod_eq_of_lt (Nat.lt_of_le_of_lt (Nat.le_trans h hn) (by decide))

/-- A name has 1 to 9 bytes, so BI can count them. -/
theorem nlen_bounds (g : Grp) : 0 < (Config.desc g).nlen ∧ (Config.desc g).nlen ≤ 9 := by
  revert g
  decide

theorem nlenOf_bounds {gi : GrpIdx} (h : gi.toNat ≤ 4) : 0 < nlenOf gi ∧ nlenOf gi ≤ 9 := by
  obtain ⟨g, hg⟩ := exists_grp h
  rw [nlenOf_eq hg]
  exact nlen_bounds g

/-- A digit field has 1 to 9 bytes, so BI can count them. -/
theorem widthOf_bounds {gi : GrpIdx} (h : gi.toNat ≤ 4) : 0 < widthOf gi ∧ widthOf gi ≤ 9 := by
  obtain ⟨g, hg⟩ := exists_grp h
  rw [widthOf_eq hg]
  exact (desc_wf g).2

/-- Before the last byte of a string of at most 9 bytes the next index is in the string too. -/
theorem byteIdx_succ_lt {b : ByteIdx} {n : Nat} (h : b.toNat < n) (hn : n ≤ 9) (hlast : b.toNat + 1 ≠ n) :
    (b + 1).toNat < n := by
  rw [byteIdx_succ_toNat h hn]
  omega

theorem PositionOk.ph_le {s : State} (h : PositionOk s) : s.ph.toNat ≤ 10 := h.1

/-- BI is 0 outside the names and the digit fields. -/
theorem PositionOk.bi_eq_zero {s : State} {p : PhCode} (h : PositionOk s) (hp : s.ph = p)
    (hout : p ≠ phName ∧ p ≠ phDig := by decide) : s.bi = 0 := by
  obtain ⟨-, -, -, hbi, -, -⟩ := h
  exact hbi (hp ▸ hout.1) (hp ▸ hout.2)

/-- GI is 0 outside the groups. -/
theorem PositionOk.gi_eq_zero {s : State} {p : PhCode} (h : PositionOk s) (hp : s.ph = p)
    (hout : p = phIdle ∨ p = phStx ∨ p = phEtx ∨ p = phAdv := by decide) : s.gi = 0 := by
  obtain ⟨-, -, hgi, -, -, -⟩ := h
  exact hgi (hp ▸ hout)

/-- The nine emitting phases by name. -/
theorem emitting_ph_cases {p : PhCode} (h1 : 1 ≤ p.toNat) (h9 : p.toNat ≤ 9) :
    p = phStx ∨ p = phLf ∨ p = phName ∨ p = phSp1 ∨ p = phDig ∨ p = phSp2 ∨ p = phChk ∨ p = phCr ∨ p = phEtx := by
  revert p
  decide

/-- Every accept leads from a legal position to a legal one (42_framer.md rule R110). -/
theorem positionOk_acceptPhase {s : State} (h : PositionOk s) (h1 : 1 ≤ s.ph.toNat) (h9 : s.ph.toNat ≤ 9) :
    PositionOk (acceptPhase s) := by
  have ⟨_, hg, _, _, hname, hdig⟩ := h
  rcases emitting_ph_cases h1 h9 with hp | hp | hp | hp | hp | hp | hp | hp | hp
  · rw [acceptPhase_stx hp]
    exact positionOk_single (by decide : phLf ∈ _) hg (h.bi_eq_zero hp)
  · rw [acceptPhase_lf hp]
    refine positionOk_name rfl hg ?_
    rw [acceptLf, goto_bi, accClear_bi, sendByte_bi, h.bi_eq_zero hp]
    exact (nlenOf_bounds hg).1
  · rw [acceptPhase_name hp, acceptName]
    refine nextInString_cases PositionOk (fun _ => ?last) (fun hmore => ?more)
    case last => exact positionOk_single (by decide : phSp1 ∈ _) hg rfl
    case more => exact positionOk_name hp hg (byteIdx_succ_lt (hname hp) (nlenOf_bounds hg).2 hmore)
  · rw [acceptPhase_sp1 hp]
    refine positionOk_dig rfl hg ?_
    rw [acceptSp1, goto_bi, accAdd_bi, sendByte_bi, h.bi_eq_zero hp]
    exact (widthOf_bounds hg).1
  · rw [acceptPhase_dig hp, acceptDig]
    refine nextInString_cases PositionOk (fun _ => ?last) (fun hmore => ?more)
    case last => exact positionOk_single (by decide : phSp2 ∈ _) hg rfl
    case more => exact positionOk_dig hp hg (byteIdx_succ_lt (hdig hp) (widthOf_bounds hg).2 hmore)
  · rw [acceptPhase_sp2 hp]
    exact positionOk_single (by decide : phChk ∈ _) hg (h.bi_eq_zero hp)
  · rw [acceptPhase_chk hp]
    exact positionOk_single (by decide : phCr ∈ _) hg (h.bi_eq_zero hp)
  · rw [acceptPhase_cr hp, acceptCr]
    refine nextGroup_cases PositionOk (fun _ => ?last) (fun hmore => ?more)
    case last => exact positionOk_framing (by decide : phEtx ∈ _) rfl (h.bi_eq_zero hp)
    case more => exact positionOk_single (by decide : phLf ∈ _) (grpIdx_succ_le hg hmore) (h.bi_eq_zero hp)
  · rw [acceptPhase_etx hp]
    exact positionOk_framing (by decide : phAdv ∈ _) (h.gi_eq_zero hp) (h.bi_eq_zero hp)

/-- Every operation of the sequencer leads from a legal position to a legal one (10_state.md rule R15). -/
theorem positionOk_sequencerNext {s : State} (h : PositionOk s) : PositionOk (sequencerNext s) := by
  rcases sequencer_cases h.ph_le with ⟨-, -, e⟩ | ⟨-, -, e⟩ | ⟨h10, e⟩ | ⟨-, -, -, e⟩ | ⟨h1, h9, -, e, -⟩
  · rwa [e]
  · rw [e]
    exact positionOk_framing (by decide : phStx ∈ _) rfl rfl
  · rw [e]
    exact positionOk_framing (by decide : phIdle ∈ _) (h.gi_eq_zero h10) (h.bi_eq_zero h10)
  · rwa [e]
  · rw [e]
    exact positionOk_acceptPhase h h1 h9

end Sys2Proof.Machine
end

section
/-! The accumulator invariant (10_state.md rule R16, 40_checksum.md rule R76), phase by phase, and that every operation
keeps it. -/

namespace Sys2Proof.Machine

section Phases
variable {s : State}

/-- Outside NAME to CR nothing is claimed of ACC. -/
theorem accOk_outside (hp : s.ph ∈ [phIdle, phStx, phLf, phEtx, phAdv]) : AccOk s := by
  have hout := (by decide : ∀ p ∈ [phIdle, phStx, phLf, phEtx, phAdv], ¬(3 ≤ p.toNat ∧ p.toNat ≤ 8)) _ hp
  exact fun h3 h8 => absurd ⟨h3, h8⟩ hout

variable {g : Grp} (hg : s.gi.toNat = g.val)
include hg

/-- In NAME, ACC holds the name bytes sent. -/
theorem accOk_name_iff (hp : s.ph = phName) :
    AccOk s ↔ s.acc = BitVec.ofNat 16 (byteSum ((Config.desc g).name.take s.bi.toNat)) := by
  simp [AccOk, summedBytes, grp?_of_toNat hg, hp, phName]

/-- At SP1, ACC holds the name. -/
theorem accOk_sp1_iff (hp : s.ph = phSp1) :
    AccOk s ↔ s.acc = BitVec.ofNat 16 (byteSum (Config.desc g).name) := by
  simp [AccOk, summedBytes, grp?_of_toNat hg, hp, phSp1]

/-- In DIG, ACC holds the name, the first space and the digits sent. -/
theorem accOk_dig_iff (hp : s.ph = phDig) :
    AccOk s ↔ s.acc = BitVec.ofNat 16 (byteSum ((Config.desc g).name ++ [Config.spByte]
      ++ (digits (s.cnt.get g).toNat (Config.desc g).width).take s.bi.toNat)) := by
  simp only [AccOk, summedBytes, grp?_of_toNat hg, hp, phDig]
  simp

/-- From SP2 to CR, ACC holds the whole checksummable substring. -/
theorem accOk_tail_iff (hp : s.ph ∈ [phSp2, phChk, phCr]) :
    AccOk s ↔ s.acc = BitVec.ofNat 16 (byteSum ((Config.desc g).name ++ [Config.spByte]
      ++ digits (s.cnt.get g).toNat (Config.desc g).width)) := by
  simp only [List.mem_cons, List.not_mem_nil, or_false] at hp
  rcases hp with hp | hp | hp
  · simp [AccOk, summedBytes, grp?_of_toNat hg, hp, phSp2]
  · simp [AccOk, summedBytes, grp?_of_toNat hg, hp, phChk]
  · simp [AccOk, summedBytes, grp?_of_toNat hg, hp, phCr]

end Phases

/-- Adding byte k of a string to the sum of the k bytes before it. -/
theorem acc_add_take_succ {a : AccWord} {pre l : List Byte} {k : Nat} {b : Byte} (hb : l[k]? = some b)
    (ha : a = BitVec.ofNat 16 (byteSum (pre ++ l.take k))) :
    a + zext16 b = BitVec.ofNat 16 (byteSum (pre ++ l.take (k + 1))) := by
  rw [ha, acc_add_byte, List.take_add_one, hb]
  simp [Nat.add_assoc]

/-- The byte NAME offers inside a name is that byte of the table. -/
theorem name_getElem? {gi : GrpIdx} {bi : ByteIdx} {g : Grp} (hg : gi.toNat = g.val)
    (hb : bi.toNat < (Config.desc g).nlen) : (Config.desc g).name[bi.toNat]? = some (nameByte gi bi) := by
  have hget := List.getElem?_eq_getElem (l := (Config.desc g).name) hb
  rw [nameByte_eq hg hget, hget]

/-- Every accept keeps ACC the sum of the summed bytes (40_checksum.md rule R76). -/
theorem accOk_acceptPhase {s : State} (hpos : PositionOk s) (h : AccOk s) (h1 : 1 ≤ s.ph.toNat)
    (h9 : s.ph.toNat ≤ 9) : AccOk (acceptPhase s) := by
  have ⟨_, hgi, _, _, hname, hdig⟩ := hpos
  obtain ⟨g, hg⟩ := exists_grp hgi
  rw [nlenOf_eq hg] at hname
  rw [widthOf_eq hg] at hdig
  rcases emitting_ph_cases h1 h9 with hp | hp | hp | hp | hp | hp | hp | hp | hp
  · rw [acceptPhase_stx hp]
    exact accOk_outside (by decide : phLf ∈ _)
  · rw [acceptPhase_lf hp]
    refine Iff.mpr (accOk_name_iff hg rfl) ?_
    simp [acceptLf, hpos.bi_eq_zero hp]
  · have hsum := acc_add_take_succ (pre := []) (name_getElem? hg (hname hp)) ((accOk_name_iff hg hp).1 h)
    rw [acceptPhase_name hp, acceptName, nlenOf_eq hg]
    refine nextInString_cases AccOk (fun (hlast : s.bi.toNat + 1 = _) => ?last) (fun _ => ?more)
    case last =>
      refine Iff.mpr (accOk_sp1_iff hg rfl) (hsum.trans ?_)
      rw [List.nil_append, List.take_of_length_le (Nat.le_of_eq hlast.symm)]
    case more =>
      refine Iff.mpr (accOk_name_iff hg hp) (hsum.trans ?_)
      rw [List.nil_append, ← byteIdx_succ_toNat (hname hp) (nlen_bounds g).2]
      rfl
  · rw [acceptPhase_sp1 hp]
    refine Iff.mpr (accOk_dig_iff hg rfl) ?_
    rw [acceptSp1, goto_acc, accAdd_acc, sendByte_acc, (accOk_sp1_iff hg hp).1 h, acc_add_byte]
    simp [hpos.bi_eq_zero hp]
  · have hsum := acc_add_take_succ (digits_getElem? (hdig hp)) ((accOk_dig_iff hg hp).1 h)
    rw [acceptPhase_dig hp, acceptDig, widthOf_eq hg, digByte_eq hg (hdig hp)]
    refine nextInString_cases AccOk (fun (hlast : s.bi.toNat + 1 = _) => ?last) (fun _ => ?more)
    case last =>
      refine Iff.mpr (accOk_tail_iff hg (by simp)) (hsum.trans ?_)
      rw [List.take_of_length_le (by rw [digits_length]; exact Nat.le_of_eq hlast.symm)]
      rfl
    case more =>
      refine Iff.mpr (accOk_dig_iff hg hp) (hsum.trans ?_)
      rw [← byteIdx_succ_toNat (hdig hp) (desc_wf g).2.2]
      rfl
  · rw [acceptPhase_sp2 hp]
    exact Iff.mpr (accOk_tail_iff hg (by simp [acceptSp2])) ((accOk_tail_iff hg (by simp [hp, phSp2])).1 h)
  · rw [acceptPhase_chk hp]
    exact Iff.mpr (accOk_tail_iff hg (by simp [acceptChk])) ((accOk_tail_iff hg (by simp [hp, phChk])).1 h)
  · rw [acceptPhase_cr hp, acceptCr]
    exact nextGroup_cases AccOk (fun _ => accOk_outside (by decide : phEtx ∈ _))
      (fun _ => accOk_outside (by decide : phLf ∈ _))
  · rw [acceptPhase_etx hp]
    exact accOk_outside (by decide : phAdv ∈ _)

/-- Every operation of the sequencer keeps ACC the sum of the summed bytes. -/
theorem accOk_sequencerNext {s : State} (hpos : PositionOk s) (h : AccOk s) : AccOk (sequencerNext s) := by
  rcases sequencer_cases hpos.ph_le with ⟨-, -, e⟩ | ⟨-, -, e⟩ | ⟨-, e⟩ | ⟨-, -, -, e⟩ | ⟨h1, h9, -, e, -⟩
  · rwa [e]
  · rw [e]
    exact accOk_outside (by decide : phStx ∈ _)
  · rw [e]
    exact accOk_outside (by decide : phIdle ∈ _)
  · rwa [e]
  · rw [e]
    exact accOk_acceptPhase hpos h h1 h9

end Sys2Proof.Machine
end

section
/-! The block's invariant over a clock edge: RESET establishes it, the sequencer's operation, the TICK and the passing
of the edge keep it (10_state.md rules R11, R15, R16, R17 and R23). -/

namespace Sys2Proof.Machine

theorem init_countersInRange : CountersInRange Config.init := by
  unfold CountersInRange
  decide

/-- RESET establishes the invariant in any state. -/
theorem blockOk_resetBlock (s : State) : BlockOk (resetBlock s) where
  position := positionOk_framing (by decide : phIdle ∈ _) rfl rfl
  counters := init_countersInRange
  queue := Nat.zero_le _
  acc := accOk_outside (by decide : phIdle ∈ _)

theorem blockOk_sequencerNext {s : State} (h : BlockOk s) : BlockOk (sequencerNext s) where
  position := positionOk_sequencerNext h.position
  counters := countersInRange_sequencerNext h.position.ph_le h.counters
  queue := Nat.le_trans (sequencerNext_tickq_le h.position.ph_le) h.queue
  acc := accOk_sequencerNext h.position h.acc

/-- A TICK goes into the queue only where there is room. -/
theorem blockOk_queueTick {s : State} (h : BlockOk s) : BlockOk (queueTick s) := by
  unfold queueTick
  split
  · next hroom => exact ⟨h.position, h.counters, hroom, h.acc⟩
  · exact ⟨h.position, h.counters, h.queue, h.acc⟩

theorem blockOk_passEdge {s : State} (h : BlockOk s) : BlockOk (passEdge s) :=
  ⟨h.position, h.counters, h.queue, h.acc⟩

theorem blockOk_edgeNext {s : State} (h : BlockOk s) : BlockOk (edgeNext s) := by
  refine blockOk_passEdge ?_
  split
  · exact blockOk_queueTick (blockOk_sequencerNext h)
  · exact blockOk_sequencerNext h

/-- Settles O50: the reset state is what RESET makes of it. -/
theorem blockInvariantHoldsAtReset : Obligations.BlockInvariantHoldsAtReset :=
  blockOk_resetBlock State.reset

/-- Settles O51: RESET establishes the invariant, and every part of an edge without RESET keeps it. -/
theorem blockInvariantIsKept : Obligations.BlockInvariantIsKept := by
  intro s t hs hstep
  rcases step_cases hstep with ⟨-, rfl⟩ | ⟨-, -, rfl⟩
  · exact blockOk_passEdge (blockOk_resetBlock s)
  · exact blockOk_edgeNext hs

end Sys2Proof.Machine
end

section
/-! The flags, the counters and the STATUS word over a step, and the values after RESET (10_state.md rules R13, R18, R19
and R23). -/

namespace Sys2Proof.Machine

/-- Settles O42: outside ADV the sequencer's operation keeps the counters, and so does the rest of an edge. -/
theorem countersChangeOnlyInAdv : Obligations.CountersChangeOnlyInAdv := by
  intro s t hr hadv hstep
  obtain ⟨hp, rfl⟩ := eq_edgeNext_of_step hr hstep
  rw [edgeNext_cnt, (sequencerNext_keeps_cnt_ovf hp hadv).1]

/-- A set overflow flag stays set: ADV only adds flags (42_framer.md rule R105). -/
theorem sequencerNext_keeps_set_ovf {s : State} (h : s.ph.toNat ≤ 10) {i : Nat} (hi : s.ovf.getLsbD i = true) :
    (sequencerNext s).ovf.getLsbD i = true := by
  by_cases hadv : s.ph = phAdv
  · rw [sequencerNext_adv hadv, returnToIdle_ovf, advanceCounters_ovf, BitVec.getLsbD_or, hi, Bool.true_or]
  · rwa [(sequencerNext_keeps_cnt_ovf h hadv).2]

/-- Settles O38: OVF moves with the sequencer's operation alone, TLOST with a TICK at a full queue alone. -/
theorem flagsStayUntilReset : Obligations.FlagsStayUntilReset := by
  intro s t hr hstep
  obtain ⟨hp, rfl⟩ := eq_edgeNext_of_step hr hstep
  obtain ⟨-, -, htlost⟩ := sequencerNext_keeps hp
  refine ⟨fun g hg => ?ovfStays, fun hset => ?tlostStays, fun hadv => ?ovfKept, fun hroom => ?tlostKept⟩
  case ovfStays => rw [edgeNext_ovf, sequencerNext_keeps_set_ovf hp hg]
  case tlostStays => rw [edgeNext_tlost, htlost, hset, ite_self]
  case ovfKept => rw [edgeNext_ovf, (sequencerNext_keeps_cnt_ovf hp hadv).2]
  case tlostKept =>
    have hnotLost : ¬(s.input.tick = true ∧ ¬(sequencerNext s).tickq < Config.tickqMax) := by
      rintro ⟨htick, hfull⟩
      rcases hroom with hno | hlt
      · exact absurd (hno.symm.trans htick) (by decide)
      · exact hfull (Nat.lt_of_le_of_lt (sequencerNext_tickq_le hp) hlt)
    rw [edgeNext_tlost, if_neg hnotLost, htlost]

/-! ### Noninterference of the flags -/

/-- Agreement but for the flags, as an update of OVF and TLOST. -/
theorem agreeButFlags_iff {s t : State} : AgreeButFlags s t ↔ ∃ o l, t = { s with ovf := o, tlost := l } := by
  constructor
  · exact fun h => ⟨_, _, h⟩
  · rintro ⟨o, l, rfl⟩
    rfl

/-- Two states that agree but for the flags do the same operation of the sequencer. -/
theorem agreeButFlags_sequencerNext {s s' : State} (h : AgreeButFlags s s') (hp : s.ph.toNat ≤ 10) :
    AgreeButFlags (sequencerNext s) (sequencerNext s') := by
  obtain ⟨o, l, rfl⟩ := agreeButFlags_iff.1 h
  obtain ⟨o', w, hnext, -⟩ := sequencerNext_outside hp o l s.wire s.inputs rfl
  have hwire : w = (sequencerNext s).wire := by
    have hw := (sequencerNext_stream (s := { s with ovf := o, tlost := l }) hp).2
    rw [hnext] at hw
    exact hw.trans (sequencerNext_stream hp).2.symm
  refine agreeButFlags_iff.2 ⟨o', l, hnext.trans ?_⟩
  rw [hwire, ← (sequencerNext_keeps hp).1]

theorem agreeButFlags_queueTick {s s' : State} (h : AgreeButFlags s s') :
    AgreeButFlags (queueTick s) (queueTick s') := by
  obtain ⟨o, l, rfl⟩ := agreeButFlags_iff.1 h
  unfold queueTick
  dsimp only
  split <;> rfl

theorem agreeButFlags_passEdge {s s' : State} (h : AgreeButFlags s s') :
    AgreeButFlags (passEdge s) (passEdge s') := by
  obtain ⟨o, l, rfl⟩ := agreeButFlags_iff.1 h
  rfl

theorem agreeButFlags_edgeNext {s s' : State} (h : AgreeButFlags s s') (hp : s.ph.toNat ≤ 10) :
    AgreeButFlags (edgeNext s) (edgeNext s') := by
  have hseq := agreeButFlags_sequencerNext h hp
  have hinput : s'.input = s.input := by
    obtain ⟨o, l, rfl⟩ := agreeButFlags_iff.1 h
    rfl
  refine agreeButFlags_passEdge ?_
  rw [hinput]
  split
  · exact agreeButFlags_queueTick hseq
  · exact hseq

/-- Settles O39: RESET forgets the flags, and no part of an edge without RESET reads them. -/
theorem flagsInfluenceNothing : Obligations.FlagsInfluenceNothing := by
  intro s s' t h hstep
  obtain ⟨o, l, hs'⟩ := agreeButFlags_iff.1 h
  have hsame : s'.input = s.input ∧ s'.ph = s.ph ∧ txValid s' = txValid s ∧ txData s' = txData s := by
    rw [hs']
    exact ⟨rfl, rfl, rfl, rfl⟩
  obtain ⟨hinput, hph, hvalid, hdata⟩ := hsame
  rcases step_cases hstep with ⟨hr, rfl⟩ | ⟨hr, hp, rfl⟩
  · refine ⟨_, step_reset (hinput ▸ hr), ?_, hvalid, fun _ => hdata⟩
    rw [hs']
    rfl
  · exact ⟨_, step_legal (hinput ▸ hr) (hph ▸ hp), agreeButFlags_edgeNext h hp, hvalid, fun _ => hdata⟩

/-! ### STATUS and RESET -/

/-- BUSY is 1 exactly when PH is not 0, the code of IDLE. -/
theorem busy_eq (s : State) : busy s = decide (s.ph ≠ 0) := by
  rw [decide_not]
  rfl

/-- Settles O37: STATUS bit by bit, each field cut out at its place. -/
theorem statusWordLayout : Obligations.StatusWordLayout := by
  intro s
  refine ⟨?ph, ?gi, ?busy, ?ovf, ?tlost, ?tpend, ?zero⟩
  case ph =>
    refine BitVec.eq_of_getLsbD_eq fun i hi => ?_
    rw [BitVec.getLsbD_extractLsb', status_getLsbD, Nat.zero_add, if_pos hi, decide_eq_true hi, Bool.true_and]
  case gi =>
    refine BitVec.eq_of_getLsbD_eq fun i hi => ?_
    rw [BitVec.getLsbD_extractLsb', status_getLsbD, Nat.add_sub_cancel_left, if_neg (by omega), if_pos hi,
      decide_eq_true hi, Bool.true_and]
  case busy =>
    rw [status_getLsbD]
    simp [busy_eq]
  case ovf =>
    refine BitVec.eq_of_getLsbD_eq fun i hi => ?_
    rw [BitVec.getLsbD_extractLsb', status_getLsbD, show 8 + i - 4 - 3 - 1 = i by omega, if_neg (by omega),
      if_neg (by omega), if_neg (by omega), if_pos hi, decide_eq_true hi, Bool.true_and]
  case tlost =>
    rw [status_getLsbD]
    simp
  case tpend =>
    rw [status_getLsbD]
    simp [tpend]
  case zero =>
    rw [status_getLsbD]
    simp

/-- After RESET every field of STATUS is 0. -/
theorem status_resetBlock (s : State) : status (resetBlock s) = 0 := by
  have hbusy : busy (resetBlock s) = false := rfl
  have htpend : tpend (resetBlock s) = false := rfl
  rw [status, hbusy, htpend, resetBlock_tlost, resetBlock_ovf, resetBlock_gi, resetBlock_ph]
  decide

/-- Settles O1: RESET is `resetBlock`, and the state the machine starts from is such a state. -/
theorem resetGivesEveryElementItsValue : Obligations.ResetGivesEveryElementItsValue :=
  ⟨⟨State.reset, rfl⟩, status_resetBlock State.reset, rfl,
    fun s => ⟨resetBlock s, rfl, rfl, status_resetBlock s, rfl⟩⟩

end Sys2Proof.Machine
end

section
/-! The byte handed to the transport (20_memory.md rules R33 and R34): when one is on offer, what the accept does with
it, and that nothing happens without it. -/

namespace Sys2Proof.Machine

theorem txValid_eq_true_iff {s : State} : txValid s = true ↔ 1 ≤ s.ph.toNat ∧ s.ph.toNat ≤ 9 := by
  simp [txValid, isEmitting]

/-- IDLE, ADV and the reserved codes offer no byte. -/
theorem txValid_eq_false {s : State} (h : s.ph = 0 ∨ 10 ≤ s.ph.toNat) : txValid s = false := by
  refine Bool.eq_false_iff.2 fun hv => ?_
  obtain ⟨h1, h9⟩ := txValid_eq_true_iff.1 hv
  rcases h with h0 | h10
  · rw [h0] at h1
    exact absurd h1 (by decide)
  · omega

/-- While `tx_valid` is 1, `tx_data` is the byte on offer. -/
theorem offered_eq_txData {s : State} (h : txValid s = true) : offered s = some (txData s) := by
  obtain ⟨b, hb⟩ := Option.isSome_iff_exists.1 ((offered_isSome s).trans h)
  rw [txData, hb]

/-- Outside the nine emitting phases an accept changes nothing (log entry 8). -/
theorem acceptPhase_of_not_txValid {s : State} (h : txValid s = false) : acceptPhase s = s := by
  have hout : ¬(1 ≤ s.ph.toNat ∧ s.ph.toNat ≤ 9) := fun hp => by
    rw [txValid_eq_true_iff.2 hp] at h
    cases h
  unfold acceptPhase
  split
  case h_10 => rfl
  all_goals omega

/-- At an accept the phase's own operation is ACCEPT. -/
theorem exec_fetch_eq_accept {s : State} (hv : txValid s = true) (ha : accepts s = true) :
    exec (fetch s) s = exec .accept s := by
  obtain ⟨h1, h9⟩ := txValid_eq_true_iff.1 hv
  rw [exec_fetch_legal (Nat.le_succ_of_le h9), sequencerNext_emitting h1 h9, if_pos ha]
  rfl

/-- Settles O30: an accept sends `tx_data` and moves ACC and the position alone; with no byte on offer it is idle. -/
theorem acceptPerformsTheEmittingPhase : Obligations.AcceptPerformsTheEmittingPhase := by
  refine fun s => ⟨fun h1 h9 => ?emitting, fun hout => ?silent⟩
  case emitting =>
    have hv := txValid_eq_true_iff.2 ⟨h1, h9⟩
    have hb := offered_eq_txData hv
    exact ⟨txData s, acceptPhase s, hv, hb, rfl, rfl, acceptPhase_sends hb,
      fun hready hrst => exec_fetch_eq_accept hv (accepts_iff.2 ⟨hready, hrst⟩)⟩
  case silent =>
    have hv := txValid_eq_false hout
    exact ⟨hv, congrArg Host.Outcome.next (acceptPhase_of_not_txValid hv)⟩

/-- The nine emitting operations act at the accept and only then. -/
theorem exec_emitting_eq_atAccept :
    ∀ i ∈ [Instr.stx, .lf, .name, .sp1, .dig, .sp2, .chk, .cr, .etx], ∃ effect, ∀ s, exec i s = atAccept effect s := by
  simp only [List.forall_mem_cons]
  exact ⟨⟨acceptStx, fun _ => rfl⟩, ⟨acceptLf, fun _ => rfl⟩, ⟨acceptName, fun _ => rfl⟩, ⟨acceptSp1, fun _ => rfl⟩,
    ⟨acceptDig, fun _ => rfl⟩, ⟨acceptSp2, fun _ => rfl⟩, ⟨acceptChk, fun _ => rfl⟩, ⟨acceptCr, fun _ => rfl⟩,
    ⟨acceptEtx, fun _ => rfl⟩, List.forall_mem_nil _⟩

/-- Settles O31: an operation that acts at the accept alone does nothing without one. -/
theorem emittingPhasesWaitForTheAccept : Obligations.EmittingPhasesWaitForTheAccept := by
  intro s i hi hwait
  obtain ⟨effect, heffect⟩ := exec_emitting_eq_atAccept i hi
  rw [heffect, atAccept_of_not (not_accepts_iff.2 hwait)]

/-- Settles O43: RESET keeps TX, and at any other edge the sequencer's operation sends `tx_data` at an accept alone. -/
theorem streamGrowsOnlyByAcceptedBytes : Obligations.StreamGrowsOnlyByAcceptedBytes := by
  intro s t hstep
  rcases step_cases hstep with ⟨hr, rfl⟩ | ⟨hr, hp, rfl⟩
  · exact ⟨fun ⟨_, _, hrst⟩ => absurd (hr.symm.trans hrst) (by decide), fun _ => rfl⟩
  · rw [edgeNext_tx, (sequencerNext_stream hp).1]
    refine ⟨fun ⟨hv, haccept⟩ => ?accepted, fun hno => ?kept⟩
    case accepted => rw [hv, accepts_iff.2 haccept, Bool.and_self, if_pos rfl]
    case kept =>
      rcases hno with hv | hwait
      · rw [hv, Bool.false_and, if_neg Bool.false_ne_true]
      · rw [not_accepts_iff.2 hwait, Bool.and_false, if_neg Bool.false_ne_true]

end Sys2Proof.Machine
end

section
/-! The range of the bytes on offer (20_memory.md rule R36, 30_encoding.md rule R56). -/

namespace Sys2Proof.Machine

/-- The names of DESC are upper-case ASCII. -/
theorem desc_name_lt : ∀ g : Grp, ∀ b ∈ (Config.desc g).name, b.toNat < 0x60 := by decide

theorem nameByte_lt {gi : GrpIdx} {bi : ByteIdx} {g : Grp} (hg : gi.toNat = g.val)
    (hb : bi.toNat < (Config.desc g).nlen) : (nameByte gi bi).toNat < 0x60 :=
  desc_name_lt g _ (List.mem_of_getElem? (name_getElem? hg hb))

theorem digitByte_lt (v w k : Nat) : (digitByte v w k).toNat < 0x60 := by
  rw [digitByte_toNat]
  omega

theorem chkByte_lt (a : AccWord) : (chkByte a).toNat < 0x60 := by
  rw [chkByte_toNat]
  omega

/-- At a legal position every byte on offer is below 0x60: a framing byte, a space, a name byte, a digit or a checksum
character. -/
theorem offered_lt {s : State} (h : PositionOk s) {b : Byte} (hb : offered s = some b) : b.toNat < 0x60 := by
  have ⟨_, hgi, _, _, hname, hdig⟩ := h
  obtain ⟨g, hg⟩ := exists_grp hgi
  rw [nlenOf_eq hg] at hname
  rw [widthOf_eq hg] at hdig
  have hv : txValid s = true := by rw [← offered_isSome, hb]; rfl
  obtain ⟨h1, h9⟩ := txValid_eq_true_iff.1 hv
  rcases emitting_ph_cases h1 h9 with hp | hp | hp | hp | hp | hp | hp | hp | hp <;> rw [offered, hp] at hb <;>
    obtain rfl := Option.some.inj hb
  · decide
  · decide
  · exact nameByte_lt hg (hname hp)
  · decide
  · rw [digByte_eq hg (hdig hp)]
    exact digitByte_lt _ _ _
  · decide
  · exact chkByte_lt s.acc
  · decide
  · decide

/-- Settles O45: the byte on offer is `tx_data`, and a byte below 0x60 is below 2^7. -/
theorem offeredBytesFitSevenBits : Obligations.OfferedBytesFitSevenBits := by
  intro s hs hv
  have hb := offered_eq_txData hv
  have hlt := offered_lt hs.position hb
  exact ⟨txData s, hb, hlt, Nat.testBit_lt_two_pow (Nat.lt_trans hlt (by decide))⟩

end Sys2Proof.Machine
end

section
/-! The `tick` pin over an edge (20_memory.md rule R44, 42_framer.md rule R101). -/

namespace Sys2Proof.Machine

/-- A TICK as an update of TICKQ and TLOST, read from these two alone. -/
theorem queueTick_eq (s : State) :
    queueTick s = { s with
      tickq := if s.tickq < Config.tickqMax then s.tickq + 1 else s.tickq
      tlost := if s.tickq < Config.tickqMax then s.tlost else true } := by
  rw [queueTick_frame, queueTick_tickq, queueTick_tlost]

/-- An edge with the `tick` pin at 1 is the edge with it at 0, followed by a TICK. -/
theorem edgeNext_tick {s : State} (hp : s.ph.toNat ≤ 10) (e : EdgeInput) (rest : List EdgeInput) :
    edgeNext { s with inputs := { e with tick := true } :: rest }
      = queueTick (edgeNext { s with inputs := { e with tick := false } :: rest }) := by
  have hseq := sequencerNext_inputs { s with inputs := { e with tick := false } :: rest }
    ({ e with tick := true } :: rest) rfl rfl rfl
  obtain ⟨hinputs, -⟩ := sequencerNext_keeps (s := { s with inputs := { e with tick := false } :: rest }) hp
  show passEdge (queueTick (sequencerNext { s with inputs := { e with tick := true } :: rest }))
    = queueTick (passEdge (sequencerNext { s with inputs := { e with tick := false } :: rest }))
  rw [hseq, queueTick_eq, queueTick_eq]
  simp only [passEdge, hinputs, List.tail_cons]

/-- Settles O36: the tick adds a TICK at the end of the edge, and that touches TICKQ and TLOST alone. -/
theorem tickPinTouchesOnlyTheQueue : Obligations.TickPinTouchesOnlyTheQueue := by
  intro s t e rest hr hstep
  obtain ⟨hp, rfl⟩ := eq_edgeNext_of_step (by exact hr) hstep
  rw [step_legal (by exact hr) (by exact hp), edgeNext_tick hp, queueTick_eq]

end Sys2Proof.Machine
end

section
/-! Round trips of the codes (30_encoding.md rules R51, R53, R54 and R55), operation by operation and code by code. -/

namespace Sys2Proof.Laws

/-- Settles O54: each operation's own round trip. -/
theorem decodeGivesBackEveryEncodedOperation : Obligations.DecodeGivesBackEveryEncodedOperation := by
  intro i rest hwf
  cases i with
  | ckHold => exact RoundTrip.ckHold rest hwf
  | ckClr => exact RoundTrip.ckClr rest hwf
  | ckAdd ckByte => exact RoundTrip.ckAdd ckByte rest hwf
  | ckRsv => exact RoundTrip.ckRsv rest hwf
  | idle => exact RoundTrip.idle rest hwf
  | stx => exact RoundTrip.stx rest hwf
  | lf => exact RoundTrip.lf rest hwf
  | name => exact RoundTrip.name rest hwf
  | sp1 => exact RoundTrip.sp1 rest hwf
  | dig => exact RoundTrip.dig rest hwf
  | sp2 => exact RoundTrip.sp2 rest hwf
  | chk => exact RoundTrip.chk rest hwf
  | cr => exact RoundTrip.cr rest hwf
  | etx => exact RoundTrip.etx rest hwf
  | adv => exact RoundTrip.adv rest hwf
  | phRsv11 => exact RoundTrip.phRsv11 rest hwf
  | phRsv12to15 code => exact RoundTrip.phRsv12to15 code rest hwf
  | reset => exact RoundTrip.reset rest hwf
  | tick => exact RoundTrip.tick rest hwf
  | accept => exact RoundTrip.accept rest hwf

/-- The operation of a phase code is well formed, a phase operation, and written as that code. -/
theorem decodePhase_encodes_back : ∀ p : PhCode,
    (decodePhase p).wf = true ∧ (decodePhase p).format = .ph4 ∧ encode (decodePhase p) = [p.setWidth 8] := by
  decide

/-- The operation of an engine code other than CK.ADD's is well formed, an engine operation, and written as that code
alone. -/
theorem decodeCkOp_encodes_back : ∀ op : BitVec 2, op ≠ 2 →
    (decodeCkOp op 0).wf = true ∧ (decodeCkOp op 0).format = .ck2 ∧ encode (decodeCkOp op 0) = [op.setWidth 8] := by
  decide

/-- A byte whose bits above the code's width are 0 is the code, right-justified (log entry 4). -/
theorem setWidth_setWidth_of_lt {n : Nat} {b : Byte} (hb : b.toNat < 2 ^ n) : (b.setWidth n).setWidth 8 = b := by
  apply BitVec.eq_of_toNat_eq
  rw [BitVec.toNat_setWidth, BitVec.toNat_setWidth, Nat.mod_eq_of_lt hb, Nat.mod_eq_of_lt b.isLt]

theorem encode_of_decodePh4 {b : Byte} {bs rest : List Byte} {i : Instr} (h : decodePh4 b bs = .ok i rest) :
    i.wf = true ∧ i.format = .ph4 ∧ encode i ++ rest = b :: bs := by
  unfold decodePh4 at h
  split at h
  · cases h
  · next hfits =>
    cases h
    obtain ⟨hwf, hformat, hencode⟩ := decodePhase_encodes_back (b.setWidth 4)
    exact ⟨hwf, hformat, by rw [hencode, setWidth_setWidth_of_lt (Nat.lt_of_not_le hfits)]; rfl⟩

theorem encode_of_decodeCk2 {b : Byte} {bs rest : List Byte} {i : Instr} (h : decodeCk2 b bs = .ok i rest) :
    i.wf = true ∧ i.format = .ck2 ∧ encode i ++ rest = b :: bs := by
  unfold decodeCk2 at h
  split at h
  · cases h
  next hfits =>
  split at h
  · next hadd =>
    obtain rfl : b = 2 := BitVec.eq_of_toNat_eq hadd
    cases bs with
    | nil => cases h
    | cons ckByte bs' =>
      cases h
      exact ⟨rfl, rfl, rfl⟩
  · next hadd =>
    cases h
    have hback := setWidth_setWidth_of_lt (n := 2) (Nat.lt_of_not_le hfits)
    have hop : b.setWidth 2 ≠ 2 := fun h2 => hadd (by rw [← hback, h2]; rfl)
    obtain ⟨hwf, hformat, hencode⟩ := decodeCkOp_encodes_back (b.setWidth 2) hop
    exact ⟨hwf, hformat, by rw [hencode, hback]; rfl⟩

/-- Settles O55: there are bytes to read, and each of the two decoders reads only codes that are written so. -/
theorem decodedCodesEncodeBack : Obligations.DecodedCodesEncodeBack := by
  intro f bytes rest i hf h
  cases bytes with
  | nil => cases h
  | cons b bs =>
    cases f with
    | ck2 => exact encode_of_decodeCk2 h
    | ph4 => exact encode_of_decodePh4 h
    | pin => exact absurd rfl hf

/-- Settles O56: the decoder evaluated at the codes of the spec's tables. -/
theorem codesOfTheTables : Obligations.CodesOfTheTables :=
  ⟨rfl, rfl, rfl, rfl, rfl, rfl, rfl, rfl, rfl, rfl, rfl⟩

end Sys2Proof.Laws
end

section
/-! The reserved phase codes (30_encoding.md rule R54). -/

namespace Sys2Proof.Machine

/-- Settles O28: the fault is the meaning of both operations and of an edge at such a code, and none of them emits. -/
theorem reservedPhaseCodesStop : Obligations.ReservedPhaseCodesStop := fun _ =>
  ⟨rfl, fun _ => rfl,
    fun hreserved hrst => ⟨step_reserved hrst hreserved, txValid_eq_false (.inr (Nat.le_of_succ_le hreserved))⟩⟩

end Sys2Proof.Machine
end

section
/-! The engine operation FRM drives at an edge (30_encoding.md rule R53). -/

namespace Sys2Proof.Machine

/-- Without RESET an accept is up to `tx_ready` alone. -/
theorem accepts_of_not_reset {s : State} (h : s.input.rst = false) : accepts s = s.input.txReady := by
  rw [accepts, h, Bool.not_false, Bool.and_true]

/-- At an accept an emitting phase's operation is ACCEPT's. -/
theorem sequencerNext_accept {s : State} (hv : txValid s = true) (ha : accepts s = true) :
    sequencerNext s = acceptPhase s := by
  obtain ⟨h1, h9⟩ := txValid_eq_true_iff.1 hv
  rw [sequencerNext_emitting h1 h9, if_pos ha]

/-- FRM clears at the accept of LF. -/
theorem ckDriven_lf {s : State} (ha : accepts s = true) (hp : s.ph = phLf) : ckDriven s = .ckClr := by
  rw [ckDriven, if_pos ha, hp]
  rfl

/-- FRM adds the byte on offer at the accept of NAME, SP1 and DIG. -/
theorem ckDriven_summed {s : State} (ha : accepts s = true) (hp : s.ph = phName ∨ s.ph = phSp1 ∨ s.ph = phDig) :
    ∃ b, offered s = some b ∧ ckDriven s = .ckAdd b := by
  rw [ckDriven, if_pos ha, offered]
  rcases hp with hp | hp | hp <;> rw [hp]
  · exact ⟨_, rfl, rfl⟩
  · exact ⟨_, rfl, rfl⟩
  · exact ⟨_, rfl, rfl⟩

/-- FRM holds at every other edge. -/
theorem ckDriven_hold {s : State}
    (h : ¬((s.ph = phLf ∨ s.ph = phName ∨ s.ph = phSp1 ∨ s.ph = phDig) ∧ accepts s = true)) :
    ckDriven s = .ckHold := by
  have hph : ∀ {p : PhCode}, s.ph.toNat = p.toNat → s.ph = p := BitVec.eq_of_toNat_eq
  unfold ckDriven
  split
  case isFalse => rfl
  case isTrue ha =>
    split
    case h_1 hp => exact absurd ⟨.inl (hph hp), ha⟩ h
    case h_2 hp => exact absurd ⟨.inr (.inl (hph hp)), ha⟩ h
    case h_3 hp => exact absurd ⟨.inr (.inr (.inl (hph hp))), ha⟩ h
    case h_4 hp => exact absurd ⟨.inr (.inr (.inr (hph hp))), ha⟩ h
    case h_5 => rfl

/-- Everything FRM can drive, and when. -/
theorem ckDriven_cases (s : State) :
    (s.ph = phLf ∧ accepts s = true ∧ ckDriven s = .ckClr)
    ∨ ((s.ph = phName ∨ s.ph = phSp1 ∨ s.ph = phDig) ∧ accepts s = true
        ∧ ∃ b, offered s = some b ∧ ckDriven s = .ckAdd b)
    ∨ (¬((s.ph = phLf ∨ s.ph = phName ∨ s.ph = phSp1 ∨ s.ph = phDig) ∧ accepts s = true)
        ∧ ckDriven s = .ckHold) := by
  by_cases h : (s.ph = phLf ∨ s.ph = phName ∨ s.ph = phSp1 ∨ s.ph = phDig) ∧ accepts s = true
  · obtain ⟨hp | hp, ha⟩ := h
    · exact .inl ⟨hp, ha, ckDriven_lf ha hp⟩
    · exact .inr (.inl ⟨hp, ha, ckDriven_summed ha hp⟩)
  · exact .inr (.inr ⟨h, ckDriven_hold h⟩)

/-- The accept of LF clears ACC. -/
theorem acceptPhase_acc_lf {s : State} (hp : s.ph = phLf) : (acceptPhase s).acc = 0 := by
  rw [acceptPhase_lf hp]
  rfl

/-- The accept of NAME, SP1 and DIG adds the byte on offer to ACC. -/
theorem acceptPhase_acc_summed {s : State} {b : Byte} (hp : s.ph = phName ∨ s.ph = phSp1 ∨ s.ph = phDig)
    (hb : offered s = some b) : (acceptPhase s).acc = s.acc + zext16 b := by
  rcases hp with hp | hp | hp <;> rw [offered, hp] at hb <;> obtain rfl := Option.some.inj hb
  · rw [acceptPhase_name hp, acceptName, nextInString_acc, accAdd_acc, sendByte_acc]
  · rw [acceptPhase_sp1 hp, acceptSp1, goto_acc, accAdd_acc, sendByte_acc]
  · rw [acceptPhase_dig hp, acceptDig, nextInString_acc, accAdd_acc, sendByte_acc]

/-- The accept of the other emitting phases keeps ACC. -/
theorem acceptPhase_acc_other {s : State} (h1 : 1 ≤ s.ph.toNat) (h9 : s.ph.toNat ≤ 9)
    (h : ¬(s.ph = phLf ∨ s.ph = phName ∨ s.ph = phSp1 ∨ s.ph = phDig)) : (acceptPhase s).acc = s.acc := by
  rcases emitting_ph_cases h1 h9 with hp | hp | hp | hp | hp | hp | hp | hp | hp
  · rw [acceptPhase_stx hp, acceptStx, goto_acc, sendByte_acc]
  · exact absurd (.inl hp) h
  · exact absurd (.inr (.inl hp)) h
  · exact absurd (.inr (.inr (.inl hp))) h
  · exact absurd (.inr (.inr (.inr hp))) h
  · rw [acceptPhase_sp2 hp, acceptSp2, goto_acc, accHold_acc, sendByte_acc]
  · rw [acceptPhase_chk hp, acceptChk, goto_acc, accHold_acc, sendByte_acc]
  · rw [acceptPhase_cr hp, acceptCr, nextGroup_acc, accHold_acc, sendByte_acc]
  · rw [acceptPhase_etx hp, acceptEtx, goto_acc, accHold_acc, sendByte_acc]

/-- The sequencer's operation keeps ACC but at the accept of LF, NAME, SP1 and DIG. -/
theorem sequencerNext_keeps_acc {s : State} (h : s.ph.toNat ≤ 10)
    (hout : ¬((s.ph = phLf ∨ s.ph = phName ∨ s.ph = phSp1 ∨ s.ph = phDig) ∧ accepts s = true)) :
    (sequencerNext s).acc = s.acc := by
  rcases sequencer_cases h with ⟨-, -, e⟩ | ⟨-, -, e⟩ | ⟨-, e⟩ | ⟨-, -, -, e⟩ | ⟨h1, h9, ha, e, -⟩ <;> rw [e]
  · rw [takeTick_acc]
  · rw [returnToIdle_acc, advanceCounters_acc]
  · exact acceptPhase_acc_other h1 h9 fun hp => hout ⟨hp, ha⟩

/-- At a legal phase ACC becomes what the engine operation that FRM drives makes of it. -/
theorem sequencerNext_acc_eq_driven {s : State} (h : s.ph.toNat ≤ 10) :
    ∃ u, exec (ckDriven s) s = .next u ∧ (sequencerNext s).acc = u.acc := by
  rcases ckDriven_cases s with ⟨hp, ha, hd⟩ | ⟨hp, ha, b, hb, hd⟩ | ⟨hout, hd⟩ <;> rw [hd]
  · refine ⟨accClear s, rfl, ?_⟩
    rw [sequencerNext_accept (txValid_eq_true_iff.2 (by rw [hp]; decide)) ha, acceptPhase_acc_lf hp, accClear_acc]
  · refine ⟨accAdd b s, rfl, ?_⟩
    have hv : txValid s = true := by rw [← offered_isSome, hb]; rfl
    rw [sequencerNext_accept hv ha, acceptPhase_acc_summed hp hb, accAdd_acc]
  · exact ⟨accHold s, rfl, sequencerNext_keeps_acc h hout⟩

/-- Settles O9: what FRM drives, case by case, and its effect on ACC. -/
theorem enginePerformsWhatTheFramerDrives : Obligations.EnginePerformsWhatTheFramerDrives := by
  intro s t hrst hstep
  obtain ⟨hp, rfl⟩ := eq_edgeNext_of_step hrst hstep
  rw [edgeNext_acc, ← accepts_of_not_reset hrst]
  refine ⟨sequencerNext_acc_eq_driven hp, ?_⟩
  rcases ckDriven_cases s with ⟨hp, ha, hd⟩ | ⟨hp, ha, b, hb, hd⟩ | ⟨hout, hd⟩
  case inl => simp [hd, ha, hp, phLf, phName, phSp1, phDig]
  case inr.inl =>
    have hlf : s.ph ≠ phLf := by rcases hp with hp | hp | hp <;> rw [hp] <;> decide
    simp [hd, ha, hp, hlf, hb]
  case inr.inr =>
    have hlf : ¬(s.ph = phLf ∧ accepts s = true) := fun ⟨hp, ha⟩ => hout ⟨.inl hp, ha⟩
    have hsummed : ¬((s.ph = phName ∨ s.ph = phSp1 ∨ s.ph = phDig) ∧ accepts s = true) :=
      fun ⟨hp, ha⟩ => hout ⟨.inr hp, ha⟩
    simp [hd, hlf, hout, ← and_assoc, hsummed, -not_and]

end Sys2Proof.Machine
end

section
/-! The formats of a field, a Data Group and a Frame (30_encoding.md rules R46, R47, R48 and R57). -/

namespace Sys2Proof.Machine

/-- Settles O10: inside the capacity `dec` is the list of digits, beyond it there is no result. -/
theorem decGivesPaddedDigitsOrRefuses : Obligations.DecGivesPaddedDigitsOrRefuses := fun v w h1 h9 =>
  ⟨fun hlt => ⟨digits v w, dec_of_lt h1 h9 hlt, digits_length v w, fun _ hk => digits_getElem? hk⟩, dec_eq_none⟩

/-- The checksum byte of a group, as a number (40_checksum.md rule R66). -/
theorem cksum_setWidth_toNat (l : List Byte) : ((cksum l).setWidth 8).toNat = byteSum l % 64 + 0x20 := by
  rw [BitVec.toNat_setWidth_of_le (by decide), cksum_toNat]

/-- A value beyond the capacity has no Data Group (41_group_encoder.md rule R90). -/
theorem group_eq_none {name : List Byte} {v w : Nat} (h : 10 ^ w ≤ v) : group name v w = none := by
  rw [group, csub, dec_eq_none h, Option.map_none, ite_self, Option.map_none]

/-- Settles O11: inside the capacity the group is written out, beyond it `dec` refuses. -/
theorem dataGroupFormat : Obligations.DataGroupFormat := by
  intro name v w hname h1 h9
  refine ⟨fun hlt => ?written, group_eq_none⟩
  case written =>
    have hgroup := group_of_lt hname h1 h9 hlt
    refine ⟨digits v w, (cksum (name ++ [Config.spByte] ++ digits v w)).setWidth 8, dec_of_lt h1 h9 hlt,
      cksum_setWidth_toNat _, hgroup, fun gr hgr => ?length⟩
    case length =>
      obtain rfl := Option.some.inj (hgroup.symm.trans hgr)
      simp only [List.length_append, List.length_cons, List.length_nil, digits_length]
      omega

/-- Settles O12: in range the five groups and the frame are the model's own, and their lengths are those of DESC. -/
theorem frameFormat : Obligations.FrameFormat := fun c hc =>
  ⟨groupBytes c 0, groupBytes c 1, groupBytes c 2, groupBytes c 3, groupBytes c 4,
    groupOf_eq hc 0, groupOf_eq hc 1, groupOf_eq hc 2, groupOf_eq hc 3, groupOf_eq hc 4, frame_eq hc,
    groupBytes_length c 0, groupBytes_length c 1, groupBytes_length c 2, groupBytes_length c 3, groupBytes_length c 4,
    frameBytes_length c⟩

end Sys2Proof.Machine
end

section
/-! The alphabet of a Frame (30_encoding.md rule R56, 42_framer.md rule R109). A Frame is read through `control`, which
keeps the control bytes and forgets which printable byte stands elsewhere: what is left is the same list of 83 entries
for all counters in range, and the claims about control bytes are read off it. -/

namespace Sys2Proof.Machine

/-- The byte itself where it lies outside 0x20..0x5F, the range of names, spaces, digits and checksums. -/
def control (b : Byte) : Option Byte := if 0x20 ≤ b.toNat ∧ b.toNat < 0x60 then none else some b

theorem control_eq_none_iff {b : Byte} : control b = none ↔ 0x20 ≤ b.toNat ∧ b.toNat < 0x60 := by
  simp [control]

/-- A byte below 0x20 is kept, and no other byte is turned into it. -/
theorem control_eq_some_iff {x : Byte} (hx : x.toNat < 0x20) {b : Byte} : control b = some x ↔ b = x := by
  unfold control
  split
  case isTrue hb =>
    have hne : b ≠ x := by
      rintro rfl
      omega
    simp [hne]
  case isFalse => simp

/-- The control bytes of a group with n bytes between LF and CR. -/
def groupControls (n : Nat) : List (Option Byte) :=
  some Config.lfByte :: (List.replicate n none ++ [some Config.crByte])

/-- The control bytes of a frame, in their places. -/
def frameControls : List (Option Byte) :=
  [some Config.stxByte] ++ groupControls 16 ++ groupControls 16 ++ groupControls 16 ++ groupControls 11
    ++ groupControls 12 ++ [some Config.etxByte]

/-- The bytes of a group between LF and CR: the checksummable substring, the second space and the checksum. -/
def groupText (c : Counters) (g : Grp) : List Byte :=
  ((Config.desc g).name ++ [Config.spByte] ++ digits (c.get g).toNat (Config.desc g).width)
    ++ [Config.spByte,
        (cksum ((Config.desc g).name ++ [Config.spByte]
          ++ digits (c.get g).toNat (Config.desc g).width)).setWidth 8]

theorem groupBytes_eq_text (c : Counters) (g : Grp) :
    groupBytes c g = Config.lfByte :: (groupText c g ++ [Config.crByte]) := by
  simp [groupBytes, groupText]

theorem groupText_length (c : Counters) (g : Grp) :
    (groupText c g).length = (Config.desc g).nlen + (Config.desc g).width + 3 := by
  simp only [groupText, Descriptor.nlen, List.length_append, List.length_cons, List.length_nil, digits_length]
  omega

theorem control_name : ∀ g : Grp, ∀ b ∈ (Config.desc g).name, control b = none := by decide

theorem control_digits {v w : Nat} {b : Byte} (hb : b ∈ digits v w) : control b = none := by
  obtain ⟨k, -, rfl⟩ := List.mem_map.1 hb
  rw [control_eq_none_iff, digitByte_toNat]
  omega

theorem control_cksum (l : List Byte) : control ((cksum l).setWidth 8) = none := by
  rw [control_eq_none_iff, cksum_setWidth_toNat]
  omega

/-- Between LF and CR of a group there is no control byte. -/
theorem control_groupText {c : Counters} {g : Grp} {b : Byte} (hb : b ∈ groupText c g) : control b = none := by
  simp only [groupText, List.mem_append, List.mem_cons, List.not_mem_nil, or_false] at hb
  rcases hb with ((hname | rfl) | hdigit) | (rfl | rfl)
  · exact control_name g b hname
  · decide
  · exact control_digits hdigit
  · decide
  · exact control_cksum _

theorem groupBytes_map_control (c : Counters) (g : Grp) :
    (groupBytes c g).map control = groupControls ((Config.desc g).nlen + (Config.desc g).width + 3) := by
  have htext : (groupText c g).map control
      = List.replicate ((Config.desc g).nlen + (Config.desc g).width + 3) none := by
    rw [List.eq_replicate_iff, List.length_map, groupText_length]
    refine ⟨rfl, fun o ho => ?_⟩
    obtain ⟨b, hb, rfl⟩ := List.mem_map.1 ho
    exact control_groupText hb
  rw [groupBytes_eq_text, List.map_cons, List.map_append, htext]
  rfl

/-- The control bytes of every frame stand in the same places. -/
theorem frameBytes_map_control (c : Counters) : (frameBytes c).map control = frameControls := by
  simp only [frameBytes, List.map_append, groupBytes_map_control]
  rfl

/-- A control byte stands in a frame where `frameControls` has it. -/
theorem frameBytes_getElem?_iff (c : Counters) {x : Byte} (hx : x.toNat < 0x20) (k : Nat) :
    (frameBytes c)[k]? = some x ↔ frameControls[k]? = some (some x) := by
  simp [← frameBytes_map_control c, control_eq_some_iff hx]

/-- A control byte occurs in a frame as often as in `frameControls`. -/
theorem frameBytes_count (c : Counters) {x : Byte} (hx : x.toNat < 0x20) :
    (frameBytes c).count x = frameControls.count (some x) := by
  rw [← frameBytes_map_control c, List.count, List.count, List.countP_map]
  refine List.countP_congr fun b _ => ?_
  simp [control_eq_some_iff hx]

/-- The places of the control bytes (95_test_vectors.md V4). -/
theorem frameControls_places : ∀ k : Fin 83,
    (frameControls[k.val]? = some (some 0x02) ↔ k.val = 0) ∧ (frameControls[k.val]? = some (some 0x03) ↔ k.val = 82)
    ∧ (frameControls[k.val]? = some (some 0x0A) ↔ k.val ∈ [1, 19, 37, 55, 68])
    ∧ (frameControls[k.val]? = some (some 0x0D) ↔ k.val ∈ [18, 36, 54, 67, 81]) := by
  decide

/-- The control bytes of every frame stand in their places; past its end nothing does. -/
theorem frameBytes_getElem?_control (c : Counters) (k : Nat) :
    ((frameBytes c)[k]? = some 0x02 ↔ k = 0) ∧ ((frameBytes c)[k]? = some 0x03 ↔ k = 82)
    ∧ ((frameBytes c)[k]? = some 0x0A ↔ k ∈ [1, 19, 37, 55, 68])
    ∧ ((frameBytes c)[k]? = some 0x0D ↔ k ∈ [18, 36, 54, 67, 81]) := by
  by_cases hk : k < 83
  · iterate 4 rw [frameBytes_getElem?_iff c (by decide)]
    exact frameControls_places ⟨k, hk⟩
  · have hnone : (frameBytes c)[k]? = none := by
      rw [List.getElem?_eq_none_iff, frameBytes_length]
      omega
    simp only [hnone, reduceCtorEq, false_iff, List.mem_cons, List.not_mem_nil, or_false]
    omega

/-- Only the four framing bytes are control bytes of a frame. -/
theorem frameControls_mem : ∀ o ∈ frameControls,
    o = some 0x02 ∨ o = some 0x03 ∨ o = some 0x0A ∨ o = some 0x0D ∨ o = none := by
  simp [frameControls, groupControls, Config.stxByte, Config.lfByte, Config.crByte, Config.etxByte]

theorem frameBytes_alphabet {c : Counters} {b : Byte} (hb : b ∈ frameBytes c) :
    b = 0x02 ∨ b = 0x03 ∨ b = 0x0A ∨ b = 0x0D ∨ (0x20 ≤ b.toNat ∧ b.toNat < 0x60) := by
  have hmem : control b ∈ frameControls := frameBytes_map_control c ▸ List.mem_map_of_mem hb
  have hkept : ∀ {x : Byte}, x.toNat < 0x20 → control b = some x → b = x := fun hx => (control_eq_some_iff hx).1
  exact (frameControls_mem _ hmem).imp (hkept (by decide)) <| .imp (hkept (by decide)) <|
    .imp (hkept (by decide)) <| .imp (hkept (by decide)) control_eq_none_iff.1

/-- Settles O13: a frame has the control bytes of `frameControls` in their places, and printable bytes elsewhere. -/
theorem frameAlphabet : Obligations.FrameAlphabet := by
  intro c f hc hf
  obtain rfl := Option.some.inj ((frame_eq hc).symm.trans hf)
  refine ⟨fun b hb => frameBytes_alphabet hb, frameBytes_getElem?_control c, ?_⟩
  iterate 4 rw [frameBytes_count c (by decide)]
  decide

end Sys2Proof.Machine
end

section
/-! The pin vector of an edge and its events (30_encoding.md rule R55, 60_exceptions.md rule R126). -/

namespace Sys2Proof.Machine

/-- Every pin in its bit, rst in bit 3. -/
theorem pinVector_bits (s : State) :
    (pinVector s).getLsbD 3 = s.input.rst ∧ (pinVector s).getLsbD 2 = s.input.tick
      ∧ (pinVector s).getLsbD 1 = txValid s ∧ (pinVector s).getLsbD 0 = s.input.txReady := by
  have key : ∀ rst tick valid ready : Bool,
      let pins := BitVec.ofBool rst ++ BitVec.ofBool tick ++ BitVec.ofBool valid ++ BitVec.ofBool ready
      pins.getLsbD 3 = rst ∧ pins.getLsbD 2 = tick ∧ pins.getLsbD 1 = valid ∧ pins.getLsbD 0 = ready := by
    decide
  exact key _ _ _ _

/-- With `rst` at 1 RESET is the only event. -/
theorem pinEvents_reset {s : State} (h : s.input.rst = true) : pinEvents (pinVector s) = [.reset] := by
  obtain ⟨hrst, -⟩ := pinVector_bits s
  rw [pinEvents, hrst, if_pos h]

/-- Without RESET the events are the ACCEPT of a byte on offer and then the TICK. -/
theorem pinEvents_of_not_reset {s : State} (h : s.input.rst = false) :
    pinEvents (pinVector s)
      = (if txValid s && s.input.txReady then [.accept] else []) ++ (if s.input.tick then [.tick] else []) := by
  obtain ⟨hrst, htick, hvalid, hready⟩ := pinVector_bits s
  rw [pinEvents, hrst, htick, hvalid, hready, if_neg (by simp [h])]

/-- The TICK as a list of events. -/
theorem runOps_tick (asked : Bool) (s : State) :
    runOps (if asked then [.tick] else []) s = .next (if asked then queueTick s else s) := by
  cases asked <;> rfl

/-- The ACCEPT as a list of events. -/
theorem runOps_accept (asked : Bool) (s : State) :
    runOps (if asked then [.accept] else []) s = .next (if asked then acceptPhase s else s) := by
  cases asked <;> rfl

/-- In an emitting phase the events of an edge without RESET do what its sequencer's operation and its TICK do. -/
theorem runOps_pinEvents_emitting {s : State} (hrst : s.input.rst = false) (hv : txValid s = true) :
    runOps (pinEvents (pinVector s)) s
      = .next (if s.input.tick then queueTick (sequencerNext s) else sequencerNext s) := by
  obtain ⟨h1, h9⟩ := txValid_eq_true_iff.1 hv
  rw [pinEvents_of_not_reset hrst, hv, Bool.true_and, runOps_append, runOps_accept, andThen_next, runOps_tick,
    sequencerNext_emitting h1 h9, accepts_of_not_reset hrst]

/-- Settles O34: RESET alone, or the phase's operation, which in an emitting phase is the ACCEPT, and then the TICK. -/
theorem anEdgePerformsTheEventsOfItsPins : Obligations.AnEdgePerformsTheEventsOfItsPins := by
  refine fun s => ⟨pinVector_bits s, pinEvents_reset, fun h => ?resetOrEmitting, fun hrst hp => ?silent⟩
  case resetOrEmitting =>
    rcases hrst : s.input.rst with _ | _
    · obtain ⟨h1, h9⟩ := h.resolve_left (by simp [hrst])
      exact ⟨_, runOps_pinEvents_emitting hrst (txValid_eq_true_iff.2 ⟨h1, h9⟩),
        step_legal hrst (Nat.le_succ_of_le h9)⟩
    · rw [pinEvents_reset hrst]
      exact ⟨resetBlock s, rfl, step_reset hrst⟩
  case silent =>
    have hlegal : s.ph.toNat ≤ 10 := by rcases hp with hp | hp <;> rw [hp] <;> decide
    have hv : txValid s = false := txValid_eq_false (hp.imp_right fun h10 => by rw [h10]; decide)
    have hevents : pinEvents (pinVector s) = if s.input.tick then [.tick] else [] := by
      rw [pinEvents_of_not_reset hrst, hv]
      rfl
    rw [hevents]
    exact ⟨sequencerNext s, _, exec_fetch_legal hlegal, rfl, runOps_tick _ _, step_legal hrst hlegal⟩

end Sys2Proof.Machine
end

section
/-! The checksum engine and its output (40_checksum.md sections 3 and 4). -/

namespace Sys2Proof.Machine

/-! ### The engine's operations -/

theorem exec_ckHold (s : State) : exec .ckHold s = .next (accHold s) := rfl
theorem exec_ckClr (s : State) : exec .ckClr s = .next (accClear s) := rfl
theorem exec_ckAdd (b : Byte) (s : State) : exec (.ckAdd b) s = .next (accAdd b s) := rfl
theorem exec_ckRsv (s : State) : exec .ckRsv s = .next (accHold s) := rfl

theorem accHold_eq (s : State) : accHold s = s := rfl

/-- Clearing is the empty sum. -/
theorem accClear_eq_sum_zero (s : State) : accClear s = { s with acc := BitVec.ofNat 16 0 } := rfl

/-- Adding a byte changes ACC alone, by a sum of numbers modulo 2^16. -/
theorem accAdd_eq (b : Byte) (s : State) :
    accAdd b s = { s with acc := BitVec.ofNat 16 ((s.acc.toNat + b.toNat) % 65536) } := by
  rw [accAdd, acc_add_zext16]

/-- Adding a byte to a state whose ACC holds the sum `n` gives the state whose ACC holds `n` with that byte. -/
theorem accAdd_sum (n : Nat) (b : Byte) (s : State) :
    accAdd b { s with acc := BitVec.ofNat 16 n } = { s with acc := BitVec.ofNat 16 (n + b.toNat) } := by
  rw [accAdd, acc_add_byte]

/-- CK.ADD of one byte after the other adds those bytes to a sum `n` in ACC, and changes nothing else. -/
theorem runOps_ckAdd_map (l : List Byte) (n : Nat) (s : State) :
    runOps (l.map .ckAdd) { s with acc := BitVec.ofNat 16 n }
      = .next { s with acc := BitVec.ofNat 16 (n + byteSum l) } := by
  induction l generalizing n with
  | nil => rfl
  | cons b bs ih =>
    rw [List.map_cons, runOps, exec_ckAdd, andThen_next, accAdd_sum, ih, byteSum_cons, Nat.add_assoc]

/-- CK.CLR and then CK.ADD of the bytes of a list leave their sum in ACC, and change nothing else. -/
theorem runOps_ckClr_ckAdd_map (l : List Byte) (s : State) :
    runOps (.ckClr :: l.map .ckAdd) s = .next { s with acc := BitVec.ofNat 16 (byteSum l) } := by
  rw [runOps, exec_ckClr, andThen_next, accClear_eq_sum_zero, runOps_ckAdd_map, Nat.zero_add]

/-- Settles O3: both operations hold, and holding is the identity. -/
theorem ckHoldAndCkRsvKeepTheState : Obligations.CkHoldAndCkRsvKeepTheState := by
  intro s
  rw [exec_ckHold, exec_ckRsv, accHold_eq]
  exact ⟨rfl, rfl⟩

/-- Settles O4: the operation is the clearing of ACC. -/
theorem ckClrClearsAcc : Obligations.CkClrClearsAcc := exec_ckClr

/-- Settles O5: the 16-bit addition, written with numbers. -/
theorem ckAddAddsTheByteModulo65536 : Obligations.CkAddAddsTheByteModulo65536 := by
  intro s b
  rw [exec_ckAdd, accAdd_eq]

/-- Settles O7: the engine sums the bytes in the order given, and the sum is the same for every order. -/
theorem engineComputesTheChecksumInAnyOrder : Obligations.EngineComputesTheChecksumInAnyOrder := by
  intro s bytes order hperm
  refine ⟨_, ?_, rfl, chkOf_byteSum bytes⟩
  rw [runOps_ckClr_ckAdd_map, byteSum_perm hperm]

/-! ### The output -/

/-- The mask keeps the bits below bit 6. -/
theorem testBit_mod_two_pow_six (n : Nat) {i : Nat} (hi : i < 6) : (n % 2 ^ 6).testBit i = n.testBit i := by
  rw [Nat.testBit_mod_two_pow, decide_eq_true hi, Bool.true_and]

/-- The offset's carry moves bit 5 of ACC to bit 6 of the output. -/
theorem chkOf_getLsbD_six (a : AccWord) : (chkOf a).getLsbD 6 = a.getLsbD 5 := by
  rw [← BitVec.testBit_toNat, ← BitVec.testBit_toNat, chkOf_toNat, Nat.testBit_eq_decide_div_mod_eq,
    Nat.testBit_eq_decide_div_mod_eq, decide_eq_decide]
  omega

/-- The offset inverts bit 5. -/
theorem chkOf_getLsbD_five (a : AccWord) : (chkOf a).getLsbD 5 = !a.getLsbD 5 := by
  rw [← BitVec.testBit_toNat, ← BitVec.testBit_toNat, chkOf_toNat, Nat.add_comm,
    ← testBit_mod_two_pow_six a.toNat (by decide)]
  exact Nat.testBit_two_pow_add_eq _ 5

/-- The offset leaves the bits below bit 5 as they are in ACC. -/
theorem chkOf_getLsbD_low (a : AccWord) {i : Nat} (hi : i < 5) : (chkOf a).getLsbD i = a.getLsbD i := by
  rw [← BitVec.testBit_toNat, ← BitVec.testBit_toNat, chkOf_toNat, Nat.add_comm,
    ← testBit_mod_two_pow_six a.toNat (Nat.lt_succ_of_lt hi)]
  exact Nat.testBit_two_pow_add_gt hi _

/-- The output is a space exactly at the multiples of 64 (40_checksum.md rule R73). -/
theorem chkOf_eq_space_iff (a : AccWord) : chkOf a = 0x20 ↔ a.toNat % 64 = 0 := by
  rw [← BitVec.toNat_inj, chkOf_toNat]
  exact Nat.add_eq_right

/-- Settles O6: the output as a number gives its range, and the offset acts from bit 5 on alone. -/
theorem chkMasksThenOffsets : Obligations.ChkMasksThenOffsets := by
  intro a
  have hval := chkOf_toNat a
  exact ⟨hval, by omega, by omega, chkOf_getLsbD_six a, chkOf_getLsbD_five a, fun _ => chkOf_getLsbD_low a,
    chkOf_eq_space_iff a⟩

/-- Settles O8: above the offset both checksums are their sums modulo 64. -/
theorem checksumIncrementLaw : Obligations.ChecksumIncrementLaw := by
  intro s s' d hd
  rw [cksum_toNat, cksum_toNat]
  omega

end Sys2Proof.Machine
end

section
/-! The group encoder's phases at an accept (41_group_encoder.md rules R81 to R87). -/

namespace Sys2Proof.Machine

/-! ### What each accept leaves, as one update of the state -/

/-- The next place in a string moves BI and PH alone. -/
theorem nextInString_eq (len : Nat) (after : PhCode) (s : State) :
    nextInString len after s = { s with
      bi := if s.bi.toNat + 1 = len then 0 else s.bi + 1
      ph := if s.bi.toNat + 1 = len then after else s.ph } := by
  unfold nextInString
  split <;> rfl

/-- The next group moves GI and PH alone. -/
theorem nextGroup_eq (s : State) :
    nextGroup s = { s with gi := if s.gi = 4 then 0 else s.gi + 1, ph := if s.gi = 4 then phEtx else phLf } := by
  unfold nextGroup
  split <;> rfl

/-- A byte of a string of `len` bytes is sent, summed and passed (41_group_encoder.md rules R82 and R84). -/
theorem nextInString_accAdd_sendByte (len : Nat) (after : PhCode) (b : Byte) (s : State) :
    nextInString len after (accAdd b (sendByte b s)) = { s with
      tx := s.tx ++ [b]
      wire := if s.input.delivers then s.wire ++ [b] else s.wire
      acc := BitVec.ofNat 16 ((s.acc.toNat + b.toNat) % 65536)
      bi := if s.bi.toNat + 1 = len then 0 else s.bi + 1
      ph := if s.bi.toNat + 1 = len then after else s.ph } := by
  rw [nextInString_eq, accAdd_eq]
  rfl

/-- A byte on offer is on the pins (20_memory.md rule R33). -/
theorem txValid_txData_of_offered {s : State} {b : Byte} (h : offered s = some b) :
    txValid s = true ∧ txData s = b := by
  have hv : txValid s = true := by rw [← offered_isSome, h]; rfl
  exact ⟨hv, Option.some.inj ((offered_eq_txData hv).symm.trans h)⟩

/-! ### The byte each phase offers -/

section Offers
variable {s : State}

theorem offered_lf (hp : s.ph = 2) : offered s = some 0x0A := by rw [offered, hp]; rfl
theorem offered_name (hp : s.ph = 3) : offered s = some (nameByte s.gi s.bi) := by rw [offered, hp]; rfl
theorem offered_sp1 (hp : s.ph = 4) : offered s = some 0x20 := by rw [offered, hp]; rfl
theorem offered_dig (hp : s.ph = 5) : offered s = some (digByte s.cnt s.gi s.bi) := by rw [offered, hp]; rfl
theorem offered_sp2 (hp : s.ph = 6) : offered s = some 0x20 := by rw [offered, hp]; rfl
theorem offered_chk (hp : s.ph = 7) : offered s = some (chkByte s.acc) := by rw [offered, hp]; rfl
theorem offered_cr (hp : s.ph = 8) : offered s = some 0x0D := by rw [offered, hp]; rfl

end Offers

/-! ### Each phase's operation at its accept -/

section AtTheAccept
variable {s : State} (hready : s.input.txReady = true) (hrst : s.input.rst = false)
include hready hrst

/-- With the transport ready and no RESET an operation that acts at the accept acts. -/
theorem atAccept_of_ready (effect : State → State) : atAccept effect s = .next (effect s) :=
  atAccept_of_accepts (accepts_iff.2 ⟨hready, hrst⟩)

theorem exec_lf_of_ready : exec .lf s = .next (acceptLf s) := atAccept_of_ready hready hrst _
theorem exec_name_of_ready : exec .name s = .next (acceptName s) := atAccept_of_ready hready hrst _
theorem exec_sp1_of_ready : exec .sp1 s = .next (acceptSp1 s) := atAccept_of_ready hready hrst _
theorem exec_dig_of_ready : exec .dig s = .next (acceptDig s) := atAccept_of_ready hready hrst _
theorem exec_sp2_of_ready : exec .sp2 s = .next (acceptSp2 s) := atAccept_of_ready hready hrst _
theorem exec_chk_of_ready : exec .chk s = .next (acceptChk s) := atAccept_of_ready hready hrst _
theorem exec_cr_of_ready : exec .cr s = .next (acceptCr s) := atAccept_of_ready hready hrst _

end AtTheAccept

/-- Settles O17: the accept of LF is the sending, the clearing and the move, written as one update. -/
theorem lfAtTheAccept : Obligations.LfAtTheAccept := fun _ hready hrst =>
  ⟨exec_lf_of_ready hready hrst, fun hp => txValid_txData_of_offered (offered_lf hp)⟩

/-- The last of `n` places, counted from 0. -/
theorem succ_eq_iff_eq_pred {k n : Nat} (h : k < n) : k + 1 = n ↔ k = n - 1 := by omega

/-- Settles O18: inside a name the byte on offer is the table's, and the length is the table's. -/
theorem nameAtTheAccept : Obligations.NameAtTheAccept := by
  intro s g hready hrst hg hbi
  refine ⟨nameByte s.gi s.bi, name_getElem? hg hbi, ?_, fun hp => txValid_txData_of_offered (offered_name hp)⟩
  rw [exec_name_of_ready hready hrst, acceptName, nextInString_accAdd_sendByte, nlenOf_eq hg]
  simp only [succ_eq_iff_eq_pred hbi]
  rfl

/-- Settles O20: the accept of SP1 sends and sums the same space. -/
theorem sp1AtTheAccept : Obligations.Sp1AtTheAccept := by
  intro s hready hrst
  refine ⟨?_, fun hp => txValid_txData_of_offered (offered_sp1 hp)⟩
  rw [exec_sp1_of_ready hready hrst, acceptSp1, accAdd_eq]
  rfl

/-- Settles O21: inside a field the byte on offer is the digit of the counter, and the width is the table's. -/
theorem digAtTheAccept : Obligations.DigAtTheAccept := by
  intro s g w b hready hrst hg hw hbi hrange hb
  subst hw
  obtain ⟨-, h1, h9⟩ := desc_wf g
  obtain rfl : digByte s.cnt s.gi s.bi = b := (digByte_eq hg hbi).trans hb.symm
  refine ⟨⟨_, dec_of_lt h1 h9 hrange, ?_⟩, ?_, fun hp => txValid_txData_of_offered (offered_dig hp)⟩
  · rw [digits_getElem? hbi, digByte_eq hg hbi]
  · rw [exec_dig_of_ready hready hrst, acceptDig, nextInString_accAdd_sendByte, widthOf_eq hg]
    simp only [succ_eq_iff_eq_pred hbi]
    rfl

/-- The checksum byte, as the number that CHK's rule gives (41_group_encoder.md rule R86). -/
theorem chkByte_eq (a : AccWord) : chkByte a = BitVec.ofNat 8 (a.toNat % 64 + 0x20) := by
  rw [← chkByte_toNat, BitVec.ofNat_toNat, BitVec.setWidth_eq]

/-- Settles O23: both accepts send and move, and holding keeps ACC. -/
theorem sp2AndChkAtTheAccept : Obligations.Sp2AndChkAtTheAccept := by
  intro s hready hrst
  rw [← chkByte_eq]
  exact ⟨exec_sp2_of_ready hready hrst, exec_chk_of_ready hready hrst,
    fun hp => txValid_txData_of_offered (offered_sp2 hp), fun hp => txValid_txData_of_offered (offered_chk hp)⟩

/-- Settles O24: the accept of CR sends and goes to the next group, whose number is GI plus 1 in GI's 3 bits. -/
theorem crAtTheAccept : Obligations.CrAtTheAccept := by
  intro s hready hrst _
  have hnext : BitVec.ofNat 3 (s.gi.toNat + 1) = s.gi + 1 := by
    rw [BitVec.ofNat_add, BitVec.ofNat_toNat, BitVec.setWidth_eq]
    rfl
  refine ⟨?_, fun hp => txValid_txData_of_offered (offered_cr hp)⟩
  rw [exec_cr_of_ready hready hrst, acceptCr, nextGroup_eq, hnext]
  rfl

end Sys2Proof.Machine
end

section
/-! A run of accepts over one Data Group (41_group_encoder.md rule R88). The run is first made by the sequencer with a
transport that is ready (`groupOps`), and then carried over to any environment: an ACCEPT reads the environment for the
wire alone. -/

namespace Sys2Proof.Machine

/-- Adding the bytes of a list to a sum in ACC. -/
theorem acc_add_byteSum {a : AccWord} {cs : List Byte} (hacc : a = BitVec.ofNat 16 (byteSum cs)) (bs : List Byte) :
    BitVec.ofNat 16 (a.toNat + byteSum bs) = BitVec.ofNat 16 (byteSum (cs ++ bs)) := by
  rw [BitVec.ofNat_add, BitVec.ofNat_toNat, BitVec.setWidth_eq, hacc, byteSum_append, BitVec.ofNat_add]

/-! ### A group, part by part: each lemma prolongs a run that has come to the part -/

section Parts
variable {l : List Instr} {s₀ s : State} (h : Runs l s₀ s) (ha : accepts s = true)
include h ha

/-- At an accept the sequencer performs the emitting phase it is in. -/
theorem Runs.accept {p : PhCode} (hp : s.ph = p) (hemits : 1 ≤ p.toNat ∧ p.toNat ≤ 9 := by decide) :
    Runs (l ++ [decodePhase p]) s₀ (acceptPhase s) := by
  obtain rfl := hp
  exact runs_append h (runs_accept ha hemits.1 hemits.2 (runs_nil _))

/-- LF clears ACC. -/
theorem Runs.lf (hp : s.ph = phLf) : ∃ w, Runs (l ++ [Instr.lf]) s₀
    { s with tx := s.tx ++ [Config.lfByte], wire := w, acc := 0, ph := phName } :=
  ⟨_, acceptPhase_lf hp ▸ h.accept ha hp⟩

/-- SP2 keeps ACC. -/
theorem Runs.sp2 (hp : s.ph = phSp2) : ∃ w, Runs (l ++ [Instr.sp2]) s₀
    { s with tx := s.tx ++ [Config.spByte], wire := w, ph := phChk } :=
  ⟨_, acceptPhase_sp2 hp ▸ h.accept ha hp⟩

/-- CR goes to the next group, or to ETX after the last one. -/
theorem Runs.cr (hp : s.ph = phCr) : ∃ w, Runs (l ++ [Instr.cr]) s₀
    { s with
      tx := s.tx ++ [Config.crByte]
      wire := w
      ph := if s.gi = 4 then phEtx else phLf
      gi := if s.gi = 4 then 0 else s.gi + 1 } :=
  ⟨_, (acceptPhase_cr hp).trans (nextGroup_eq _) ▸ h.accept ha hp⟩

section Sums
variable {cs : List Byte} (hacc : s.acc = BitVec.ofNat 16 (byteSum cs))
include hacc

/-- SP1 sums its space. -/
theorem Runs.sp1 (hp : s.ph = phSp1) : ∃ w, Runs (l ++ [Instr.sp1]) s₀
    { s with
      tx := s.tx ++ [Config.spByte]
      wire := w
      acc := BitVec.ofNat 16 (byteSum (cs ++ [Config.spByte]))
      ph := phDig } := by
  have hsum : s.acc + zext16 Config.spByte = BitVec.ofNat 16 (byteSum (cs ++ [Config.spByte])) := by
    rw [hacc, acc_add_byte, byteSum_append]
    rfl
  rw [← hsum]
  exact ⟨_, acceptPhase_sp1 hp ▸ h.accept ha hp⟩

/-- CHK sends the checksum of the bytes whose sum ACC holds, and keeps ACC. -/
theorem Runs.chk (hp : s.ph = phChk) : ∃ w, Runs (l ++ [Instr.chk]) s₀
    { s with tx := s.tx ++ [(cksum cs).setWidth 8], wire := w, ph := phCr } := by
  rw [← chkByte_of_sum, ← hacc]
  exact ⟨_, acceptPhase_chk hp ▸ h.accept ha hp⟩

variable {g : Grp} (hg : s.gi.toNat = g.val) (hb : s.bi = 0)
include hg hb

/-- A whole name is sent and summed. -/
theorem Runs.name (hp : s.ph = phName) : ∃ w, Runs (l ++ List.replicate (Config.desc g).nlen Instr.name) s₀
    { s with
      tx := s.tx ++ (Config.desc g).name
      wire := w
      acc := BitVec.ofNat 16 (byteSum (cs ++ (Config.desc g).name))
      ph := phSp1 } := by
  obtain ⟨m, hm⟩ := Nat.exists_eq_add_one.2 (nlen_bounds g).1
  obtain ⟨w, hrun⟩ := runs_names g m s ha hp hg (by rw [hb, hm]; exact Nat.zero_add _)
  rw [acc_add_byteSum hacc] at hrun
  exact ⟨w, by simpa [hm, hb] using runs_append h hrun⟩

/-- A whole digit field is sent and summed. -/
theorem Runs.field (hp : s.ph = phDig) : ∃ w, Runs (l ++ List.replicate (Config.desc g).width Instr.dig) s₀
    { s with
      tx := s.tx ++ digits (s.cnt.get g).toNat (Config.desc g).width
      wire := w
      acc := BitVec.ofNat 16 (byteSum (cs ++ digits (s.cnt.get g).toNat (Config.desc g).width))
      ph := phSp2 } := by
  obtain ⟨m, hm⟩ := Nat.exists_eq_add_one.2 (desc_wf g).2.1
  obtain ⟨w, hrun⟩ := runs_digits g m s ha hp hg (by rw [hb, hm]; exact Nat.zero_add _)
  rw [acc_add_byteSum hacc] at hrun
  exact ⟨w, by simpa [hm, hb] using runs_append h hrun⟩

end Sums

/-- The first half of a group, LF to SP1: ACC is left with the sum of the name and the space. -/
theorem Runs.groupHead {g : Grp} (hg : s.gi.toNat = g.val) (hb : s.bi = 0) (hp : s.ph = phLf) : ∃ w,
    Runs (l ++ ([Instr.lf] ++ List.replicate (Config.desc g).nlen Instr.name ++ [Instr.sp1])) s₀
    { s with
      tx := s.tx ++ ([Config.lfByte] ++ (Config.desc g).name ++ [Config.spByte])
      wire := w
      acc := BitVec.ofNat 16 (byteSum ((Config.desc g).name ++ [Config.spByte]))
      ph := phDig } := by
  obtain ⟨_, hlf⟩ := h.lf ha hp
  obtain ⟨_, hname⟩ := hlf.name ha (cs := []) rfl hg hb rfl
  obtain ⟨w, hsp1⟩ := hname.sp1 ha rfl rfl
  refine ⟨w, ?_⟩
  simp only [← List.append_assoc]
  exact hsp1

/-- The end of a group, SP2 to CR: the checksum of the bytes whose sum ACC holds is sent. -/
theorem Runs.groupTail {cs : List Byte} (hacc : s.acc = BitVec.ofNat 16 (byteSum cs)) (hp : s.ph = phSp2) : ∃ w,
    Runs (l ++ [Instr.sp2, .chk, .cr]) s₀
    { s with
      tx := s.tx ++ [Config.spByte, (cksum cs).setWidth 8, Config.crByte]
      wire := w
      ph := if s.gi = 4 then phEtx else phLf
      gi := if s.gi = 4 then 0 else s.gi + 1 } := by
  obtain ⟨_, hsp2⟩ := h.sp2 ha hp
  obtain ⟨_, hchk⟩ := hsp2.chk ha hacc rfl
  obtain ⟨w, hcr⟩ := hchk.cr ha rfl
  exact ⟨w, by simpa using hcr⟩

/-- A whole group: its bytes are sent, ACC is left with the sum of its checksummable substring, and the next group or
ETX comes next. -/
theorem Runs.group {g : Grp} (hg : s.gi.toNat = g.val) (hb : s.bi = 0) (hp : s.ph = phLf) : ∃ w,
    Runs (l ++ groupOps g) s₀
    { s with
      tx := s.tx ++ groupBytes s.cnt g
      wire := w
      acc := BitVec.ofNat 16 (byteSum ((Config.desc g).name ++ [Config.spByte]
        ++ digits (s.cnt.get g).toNat (Config.desc g).width))
      ph := if s.gi = 4 then phEtx else phLf
      gi := if s.gi = 4 then 0 else s.gi + 1 } := by
  obtain ⟨_, hhead⟩ := h.groupHead ha hg hb hp
  obtain ⟨_, hfield⟩ := hhead.field ha rfl hg hb rfl
  obtain ⟨w, htail⟩ := hfield.groupTail ha rfl rfl
  refine ⟨w, ?_⟩
  simp only [groupOps, groupBytes, ← List.append_assoc] at htail ⊢
  exact htail

end Parts

/-! ### From a ready transport to any environment -/

/-- A run of ACCEPTs does not read the flags, the wire or the environment's edges, but for what it adds to the wire. -/
theorem runOps_accepts_outside (o : OvfFlags) (b : Bool) (is : List EdgeInput) {n : Nat} {s t : State} (w : List Byte)
    (h : runOps (List.replicate n .accept) s = .next t) :
    ∃ w', runOps (List.replicate n .accept) { s with ovf := o, tlost := b, wire := w, inputs := is }
      = .next { t with ovf := o, tlost := b, wire := w', inputs := is } := by
  induction n generalizing s w with
  | zero =>
    obtain rfl := Host.Outcome.next.inj h
    exact ⟨w, rfl⟩
  | succ n ih =>
    obtain ⟨w₁, haccept⟩ := acceptPhase_outside s o b w is
    obtain ⟨w', hrest⟩ := ih w₁ h
    exact ⟨w', (congrArg (runOps (List.replicate n .accept)) haccept).trans hrest⟩

/-- Every operation of a group is an emitting phase's. -/
theorem groupOps_emitting (g : Grp) : ∀ i ∈ groupOps g, i.format = .ph4 ∧ i ≠ .idle ∧ i ≠ .adv := by
  revert g
  decide

theorem groupOps_length (g : Grp) : (groupOps g).length = (Config.desc g).nlen + (Config.desc g).width + 5 := by
  revert g
  decide

/-- GI is 4 exactly in the last group. -/
theorem gi_eq_four_iff {gi : GrpIdx} {g : Grp} (hg : gi.toNat = g.val) : gi = 4 ↔ g = 4 := by
  rw [← BitVec.toNat_inj, hg, Fin.ext_iff]
  rfl

/-- Settles O48: with a ready transport the accepts are the sequencer's run of the group, and an ACCEPT looks at the
transport for the wire alone. -/
theorem acceptsEmitAWholeGroup : Obligations.AcceptsEmitAWholeGroup := by
  intro s g hp hg hb hrange
  obtain ⟨hname, h1, h9⟩ := desc_wf g
  obtain ⟨_, hrun⟩ := (runs_nil { s with inputs := [readyEdge] }).group rfl hg hb hp
  have hready := runs_eq_accepts (groupOps_emitting g) rfl hrun
  obtain ⟨w, haccepts⟩ := runOps_accepts_outside s.ovf s.tlost s.inputs s.wire hready
  rw [groupOps_length] at haccepts
  refine ⟨_, _, _, csub_of_lt hname h1 h9 hrange, groupOf_of_lt hrange, haccepts, ?_⟩
  simp only [gi_eq_four_iff hg]
  rfl

end Sys2Proof.Machine
end

section
/-! The framer's own operations and the TICK (42_framer.md rules R101 to R105). -/

namespace Sys2Proof.Machine

/-- IDLE takes a pending tick. -/
theorem exec_idle_of_pending {s : State} (h : 0 < s.tickq) : exec .idle s = .next (takeTick s) := if_pos h

/-- IDLE waits while no tick is pending. -/
theorem exec_idle_of_empty {s : State} (h : s.tickq = 0) : exec .idle s = .next s := if_neg (by omega)

/-- Settles O15: IDLE's two cases, and that IDLE is no emitting phase. -/
theorem idleTakesAPendingTick : Obligations.IdleTakesAPendingTick := fun _ =>
  ⟨exec_idle_of_pending, exec_idle_of_empty, fun hidle => txValid_eq_false (.inl hidle)⟩

section AtTheAccept
variable {s : State}

theorem offered_stx (hp : s.ph = 1) : offered s = some 0x02 := by rw [offered, hp]; rfl
theorem offered_etx (hp : s.ph = 9) : offered s = some 0x03 := by rw [offered, hp]; rfl

variable (hready : s.input.txReady = true) (hrst : s.input.rst = false)
include hready hrst

theorem exec_stx_of_ready : exec .stx s = .next (acceptStx s) := atAccept_of_ready hready hrst _
theorem exec_etx_of_ready : exec .etx s = .next (acceptEtx s) := atAccept_of_ready hready hrst _

end AtTheAccept

/-- Settles O16: both accepts are a sending and a move, written as one update. -/
theorem stxAndEtxAtTheAccept : Obligations.StxAndEtxAtTheAccept := fun _ hready hrst =>
  ⟨exec_stx_of_ready hready hrst, exec_etx_of_ready hready hrst,
    fun hp => txValid_txData_of_offered (offered_stx hp), fun hp => txValid_txData_of_offered (offered_etx hp)⟩

/-- A TICK is queued while there is room. -/
theorem queueTick_of_room {s : State} (h : s.tickq < Config.tickqMax) :
    queueTick s = { s with tickq := s.tickq + 1 } := if_pos h

/-- A TICK at a full queue is lost. -/
theorem queueTick_of_full {s : State} (h : Config.tickqMax ≤ s.tickq) :
    queueTick s = { s with tlost := true } := if_neg (Nat.not_lt.2 h)

/-- Settles O29: the two cases of a TICK; TICKQ_MAX is a successor. -/
theorem tickQueuesOrIsLost : Obligations.TickQueuesOrIsLost := fun _ =>
  ⟨Nat.le_add_left 1 Config.tickqExtra, fun hroom => congrArg Host.Outcome.next (queueTick_of_room hroom),
    fun hfull => congrArg Host.Outcome.next (queueTick_of_full hfull)⟩

end Sys2Proof.Machine
end

section
/-! The advance of the counters and their overflow bits (42_framer.md rules R100, R105 and R107). -/

namespace Sys2Proof.Machine

/-- The pure advance sets exactly the overflow bits of the counters at their capacity. -/
theorem adv_ovf_getLsbD (c : Counters) (g : Grp) :
    (adv c).2.getLsbD g.val = decide ((c.get g).toNat = 10 ^ (Config.desc g).width - 1) := by
  rw [adv, ovfOfFn_getLsbD]

/-- A counter in range but not at its capacity grows by 1. -/
theorem adv_get_toNat_of_ne {c : Counters} (h : CountersInRange c) {g : Grp}
    (hne : (c.get g).toNat ≠ 10 ^ (Config.desc g).width - 1) : ((adv c).1.get g).toNat = (c.get g).toNat + 1 := by
  have hlt := h g
  rw [adv_get_toNat, Nat.mod_eq_of_lt (by omega)]

/-- A counter at its capacity becomes 0. -/
theorem adv_get_of_capacity {c : Counters} {g : Grp}
    (h : (c.get g).toNat = 10 ^ (Config.desc g).width - 1) : (adv c).1.get g = 0 := by
  apply BitVec.eq_of_toNat_eq
  rw [adv_get_toNat, h, Nat.sub_add_cancel (capacity_pos g), Nat.mod_self]
  rfl

/-- With the counters in range ADV is the pure advance (42_framer.md rule R105). -/
theorem returnToIdle_advanceCounters {s : State} (h : CountersInRange s.cnt) :
    returnToIdle (advanceCounters s)
      = { s with cnt := (adv s.cnt).1, ovf := s.ovf ||| (adv s.cnt).2, ph := phIdle } := by
  rw [← bumpAll_eq_adv h, ← wraps_eq_adv]
  rfl

/-- Settles O26: ADV is the pure advance, read counter by counter. -/
theorem advAdvancesAllCountersAtOnce : Obligations.AdvAdvancesAllCountersAtOnce := by
  intro s hrange
  refine ⟨_, congrArg Host.Outcome.next (returnToIdle_advanceCounters hrange), rfl, fun hadv => ?silent, fun g =>
    ⟨adv_get_toNat s.cnt g, fun hcap => ⟨adv_get_of_capacity hcap, ?flagSet⟩,
      fun hne => ⟨adv_get_toNat_of_ne hrange hne, ?flagKept⟩⟩⟩
  case silent =>
    refine txValid_eq_false (.inr ?_)
    rw [hadv]
    decide
  case flagSet => rw [BitVec.getLsbD_or, adv_ovf_getLsbD, decide_eq_true hcap, Bool.or_true]
  case flagKept => rw [BitVec.getLsbD_or, adv_ovf_getLsbD, decide_eq_false hne, Bool.or_false]

/-- Settles O47, by induction on the number of advances. -/
theorem counterAdvanceLaw : Obligations.CounterAdvanceLaw := by
  intro n g
  induction n with
  | zero => exact (Nat.mod_eq_of_lt (init_countersInRange g)).symm
  | succ n ih => rw [advances, adv_get_toNat, ih, Nat.mod_add_mod, Nat.add_assoc]

end Sys2Proof.Machine
end

section
/-! Frames do not overlap (42_framer.md rule R113). -/

namespace Sys2Proof.Machine

/-- Settles O44: an accept leads to a phase of 2 at least, so STX and IDLE are entered by IDLE and ADV alone, or kept. -/
theorem framesNeverOverlap : Obligations.FramesNeverOverlap := by
  intro s t hr hstep
  obtain ⟨hp, rfl⟩ := eq_edgeNext_of_step hr hstep
  rw [edgeNext_ph]
  rcases sequencer_cases hp with
    ⟨h0, hempty, e⟩ | ⟨h0, hpending, e⟩ | ⟨h10, e⟩ | ⟨h1, -, -, e⟩ | ⟨h1, h9, -, e, -⟩
  · rw [e]
    exact ⟨.inl, fun _ => .inr ⟨h0, hempty⟩⟩
  · rw [e]
    exact ⟨fun _ => .inr ⟨h0, hpending⟩, fun hidle => absurd hidle (by decide : phStx ≠ phIdle)⟩
  · rw [e]
    exact ⟨fun hstx => absurd hstx (by decide : phIdle ≠ phStx), fun _ => .inl h10⟩
  · rw [e]
    exact ⟨.inl, fun hidle => absurd (hidle ▸ h1) (by decide : ¬1 ≤ phIdle.toNat)⟩
  · obtain ⟨h2, -⟩ := acceptPhase_ph h1 h9
    rw [e]
    exact ⟨fun hstx => absurd (hstx ▸ h2) (by decide : ¬2 ≤ phStx.toNat),
      fun hidle => absurd (hidle ▸ h2) (by decide : ¬2 ≤ phIdle.toNat)⟩

end Sys2Proof.Machine
end

section
/-! How far the frame in progress has come (42_framer.md rule R110): at each accept by one byte. -/

namespace Sys2Proof.Machine

section SentInFrame
variable {s : State}

theorem sentInFrame_idle (hp : s.ph = phIdle) : sentInFrame s = 0 := by rw [sentInFrame, hp]; rfl
theorem sentInFrame_stx (hp : s.ph = phStx) : sentInFrame s = 0 := by rw [sentInFrame, hp]; rfl
theorem sentInFrame_lf (hp : s.ph = phLf) : sentInFrame s = groupStart s.gi.toNat := by rw [sentInFrame, hp]; rfl
theorem sentInFrame_name (hp : s.ph = phName) : sentInFrame s = groupStart s.gi.toNat + 1 + s.bi.toNat := by
  rw [sentInFrame, hp]; rfl
theorem sentInFrame_sp1 (hp : s.ph = phSp1) : sentInFrame s = groupStart s.gi.toNat + 1 + nlenOf s.gi := by
  rw [sentInFrame, hp]; rfl
theorem sentInFrame_dig (hp : s.ph = phDig) :
    sentInFrame s = groupStart s.gi.toNat + 2 + nlenOf s.gi + s.bi.toNat := by rw [sentInFrame, hp]; rfl
theorem sentInFrame_sp2 (hp : s.ph = phSp2) :
    sentInFrame s = groupStart s.gi.toNat + 2 + nlenOf s.gi + widthOf s.gi := by rw [sentInFrame, hp]; rfl
theorem sentInFrame_chk (hp : s.ph = phChk) :
    sentInFrame s = groupStart s.gi.toNat + 3 + nlenOf s.gi + widthOf s.gi := by rw [sentInFrame, hp]; rfl
theorem sentInFrame_cr (hp : s.ph = phCr) :
    sentInFrame s = groupStart s.gi.toNat + 4 + nlenOf s.gi + widthOf s.gi := by rw [sentInFrame, hp]; rfl
theorem sentInFrame_etx (hp : s.ph = phEtx) : sentInFrame s = groupStart 5 := by rw [sentInFrame, hp]; rfl
theorem sentInFrame_adv (hp : s.ph = phAdv) : sentInFrame s = groupStart 5 + 1 := by rw [sentInFrame, hp]; rfl

end SentInFrame

/-- The position alone says how much of the frame has been sent. -/
theorem sentInFrame_congr {s t : State} (hp : t.ph = s.ph) (hg : t.gi = s.gi) (hb : t.bi = s.bi) :
    sentInFrame t = sentInFrame s := by
  simp only [sentInFrame, hp, hg, hb]

/-- A group starts where the one before it ends (30_encoding.md rule R57). -/
theorem groupStart_succ (gi : GrpIdx) :
    groupStart (gi.toNat + 1) = groupStart gi.toNat + (nlenOf gi + widthOf gi + 5) := by
  rw [groupStart, BitVec.ofNat_toNat, BitVec.setWidth_eq]

/-- GI does not wrap before the last group (10_state.md rule R14). -/
theorem grpIdx_succ_toNat {gi : GrpIdx} (h : gi.toNat ≤ 4) : (gi + 1).toNat = gi.toNat + 1 := by
  rw [BitVec.toNat_add]
  exact Nat.mod_eq_of_lt (Nat.lt_of_le_of_lt (Nat.succ_le_succ h) (by decide))

/-- Every accept at a legal position takes the frame one byte further (42_framer.md rule R110). -/
theorem sentInFrame_acceptPhase {s : State} (h : PositionOk s) (h1 : 1 ≤ s.ph.toNat) (h9 : s.ph.toNat ≤ 9) :
    sentInFrame (acceptPhase s) = sentInFrame s + 1 := by
  have ⟨_, hg, _, _, hname, hdig⟩ := h
  rcases emitting_ph_cases h1 h9 with hp | hp | hp | hp | hp | hp | hp | hp | hp
  · rw [acceptPhase_stx hp, sentInFrame_stx hp, sentInFrame_lf rfl]
    show groupStart s.gi.toNat = 1
    rw [h.gi_eq_zero hp]
    rfl
  · rw [acceptPhase_lf hp, sentInFrame_lf hp, sentInFrame_name rfl]
    show groupStart s.gi.toNat + 1 + s.bi.toNat = _
    rw [h.bi_eq_zero hp]
    rfl
  · rw [acceptPhase_name hp, acceptName, sentInFrame_name hp]
    refine nextInString_cases (sentInFrame · = _) (fun hlast => ?last) (fun _ => ?more)
    case last =>
      rw [sentInFrame_sp1 rfl]
      exact congrArg (groupStart s.gi.toNat + 1 + ·) hlast.symm
    case more =>
      rw [sentInFrame_name (by exact hp)]
      exact congrArg (groupStart s.gi.toNat + 1 + ·) (byteIdx_succ_toNat (hname hp) (nlenOf_bounds hg).2)
  · rw [acceptPhase_sp1 hp, sentInFrame_sp1 hp, sentInFrame_dig rfl]
    show groupStart s.gi.toNat + 2 + nlenOf s.gi + s.bi.toNat = _
    have hbi : s.bi.toNat = 0 := by rw [h.bi_eq_zero hp]; rfl
    omega
  · rw [acceptPhase_dig hp, acceptDig, sentInFrame_dig hp]
    refine nextInString_cases (sentInFrame · = _) (fun hlast => ?last) (fun _ => ?more)
    case last =>
      rw [sentInFrame_sp2 rfl]
      exact congrArg (groupStart s.gi.toNat + 2 + nlenOf s.gi + ·) hlast.symm
    case more =>
      rw [sentInFrame_dig (by exact hp)]
      exact congrArg (groupStart s.gi.toNat + 2 + nlenOf s.gi + ·)
        (byteIdx_succ_toNat (hdig hp) (widthOf_bounds hg).2)
  · rw [acceptPhase_sp2 hp, sentInFrame_sp2 hp, sentInFrame_chk rfl]
    show groupStart s.gi.toNat + 3 + nlenOf s.gi + widthOf s.gi = _
    omega
  · rw [acceptPhase_chk hp, sentInFrame_chk hp, sentInFrame_cr rfl]
    show groupStart s.gi.toNat + 4 + nlenOf s.gi + widthOf s.gi = _
    omega
  · have hend : groupStart (s.gi.toNat + 1) = sentInFrame s + 1 := by
      rw [groupStart_succ, sentInFrame_cr hp]
      omega
    rw [acceptPhase_cr hp, acceptCr, ← hend]
    refine nextGroup_cases (sentInFrame · = _) (fun (hlast : s.gi = 4) => ?last) (fun _ => ?more)
    case last => rw [sentInFrame_etx rfl, hlast]; rfl
    case more =>
      rw [sentInFrame_lf rfl]
      exact congrArg groupStart (grpIdx_succ_toNat hg)
  · rw [acceptPhase_etx hp, sentInFrame_etx hp, sentInFrame_adv rfl]

end Sys2Proof.Machine
end

section
/-! The stream invariant (42_framer.md rules R107 and R108): RESET establishes it; at an accept the frame in progress
grows by its next byte, and ADV closes it and starts the next one. -/

namespace Sys2Proof.Machine

/-- At its initial value no counter has wrapped. -/
theorem reset_ovf_getLsbD : ∀ g : Grp, (0 : OvfFlags).getLsbD g.val
    = decide (10 ^ (Config.desc g).width ≤ (Config.init.get g).toNat + 0) := by decide

/-- After RESET nothing of the first frame has been sent and no counter has wrapped. -/
theorem streamOk_resetBlock (s : State) : StreamOk s.tx (resetBlock s) := by
  refine ⟨[], _, 0, rfl, rfl, frame_eq init_countersInRange, ?_, reset_ovf_getLsbD⟩
  rw [sentInFrame_idle rfl, List.take_zero, List.append_nil, List.append_nil]
  rfl

/-- The invariant reads the counters, OVF, TX and the position alone. -/
theorem streamOk_congr {before : List Byte} {s t : State} (h : StreamOk before s) (hcnt : t.cnt = s.cnt)
    (hovf : t.ovf = s.ovf) (htx : t.tx = s.tx) (hsent : sentInFrame t = sentInFrame s) : StreamOk before t := by
  rwa [StreamOk, hcnt, hovf, htx, hsent]

/-- An accept sends the next byte of the frame in progress. -/
theorem streamOk_acceptPhase {before : List Byte} {s : State} (hs : BlockOk s) (h : StreamOk before s)
    {b : Byte} (hb : offered s = some b) : StreamOk before (acceptPhase s) := by
  obtain ⟨done, cur, n, hcnt, hdone, hcur, htx, hovf⟩ := h
  obtain ⟨h1, h9⟩ := txValid_eq_true_iff.1 (txValid_txData_of_offered hb).1
  have hsent := sentInFrame_acceptPhase hs.position h1 h9
  have hsends := acceptPhase_sends hb
  have hnext : cur[sentInFrame s]? = some b := by
    rw [← Option.some.inj ((frame_eq hs.counters).symm.trans hcur), frameBytes_sentInFrame hs hb]
  have htx' : (acceptPhase s).tx = before ++ done ++ cur.take (sentInFrame s + 1) := by
    rw [hsends, List.take_add_one, hnext]
    show s.tx ++ [b] = _
    rw [htx, List.append_assoc]
    rfl
  rw [← hsent] at htx'
  have hcnt' : (acceptPhase s).cnt = s.cnt := by rw [hsends]; rfl
  have hovf' : (acceptPhase s).ovf = s.ovf := by rw [hsends]; rfl
  exact ⟨done, cur, n, hcnt'.trans hcnt, hdone, hcnt' ▸ hcur, htx', hovf' ▸ hovf⟩

/-- A field whose value counts modulo its capacity has wrapped after one more advance exactly when it had wrapped before
or stood at its capacity. -/
theorem wrapped_succ (m w : Nat) :
    (decide (10 ^ w ≤ m) || decide (m % 10 ^ w = 10 ^ w - 1)) = decide (10 ^ w ≤ m + 1) := by
  have hpos : 0 < 10 ^ w := Nat.pow_pos (by decide)
  rcases Nat.lt_or_ge m (10 ^ w) with hlt | hge
  · rw [Nat.mod_eq_of_lt hlt, ← Bool.decide_or, decide_eq_decide]
    omega
  · rw [decide_eq_true hge, Bool.true_or, decide_eq_true (Nat.le_succ_of_le hge)]

/-- ADV closes the frame in progress and starts the next one with the next counter values. -/
theorem streamOk_adv {before : List Byte} {s : State} (hs : BlockOk s) (hp : s.ph = phAdv)
    (h : StreamOk before s) : StreamOk before (returnToIdle (advanceCounters s)) := by
  obtain ⟨done, cur, n, hcnt, hdone, hcur, htx, hovf⟩ := h
  have hnext := countersInRange_sequencerNext hs.position.ph_le hs.counters
  rw [sequencerNext_adv hp, returnToIdle_advanceCounters hs.counters] at hnext
  have hcurBytes := Option.some.inj ((frame_eq hs.counters).symm.trans hcur)
  have hwhole : cur.take (sentInFrame s) = cur := by
    refine List.take_of_length_le ?_
    rw [← hcurBytes, frameBytes_length, sentInFrame_adv hp]
    decide
  have hframes : frames (n + 1) = some (done ++ cur) := by rw [frames, hdone, ← hcnt, hcur]
  rw [returnToIdle_advanceCounters hs.counters]
  refine ⟨done ++ cur, _, n + 1, ?_, hframes, frame_eq hnext, ?_, fun g => ?_⟩
  · rw [advances, ← hcnt]
  · rw [sentInFrame_idle rfl, List.take_zero, List.append_nil, ← List.append_assoc]
    exact hwhole ▸ htx
  · rw [BitVec.getLsbD_or, hovf, adv_ovf_getLsbD, hcnt, counterAdvanceLaw, wrapped_succ, Nat.add_assoc]

/-- Every operation of the sequencer keeps the invariant. -/
theorem streamOk_sequencerNext {before : List Byte} {s : State} (hs : BlockOk s) (h : StreamOk before s) :
    StreamOk before (sequencerNext s) := by
  rcases sequencer_cases hs.position.ph_le with
    ⟨-, -, e⟩ | ⟨h0, -, e⟩ | ⟨h10, e⟩ | ⟨-, -, -, e⟩ | ⟨-, -, -, e, b, hb, -⟩
  · rwa [e]
  · rw [e]
    exact streamOk_congr h rfl rfl rfl ((sentInFrame_stx rfl).trans (sentInFrame_idle h0).symm)
  · rw [e]
    exact streamOk_adv hs h10 h
  · rwa [e]
  · rw [e]
    exact streamOk_acceptPhase hs h hb

/-- Settles O52: the reset state is what RESET makes of it. -/
theorem streamInvariantHoldsAtReset : Obligations.StreamInvariantHoldsAtReset := by
  refine ⟨streamOk_resetBlock State.reset, fun s t hreset => ?_⟩
  obtain rfl : resetBlock s = t := Host.Outcome.next.inj hreset
  exact streamOk_resetBlock s

/-- Settles O53: the sequencer's operation keeps the invariant, the TICK and the passing of the edge touch nothing it
reads, and RESET establishes it. -/
theorem streamInvariantIsKept : Obligations.StreamInvariantIsKept := by
  refine ⟨fun before s t hs h hr hstep => ?kept, fun s t hr hstep => ?reset⟩
  case kept =>
    obtain ⟨-, rfl⟩ := eq_edgeNext_of_step hr hstep
    exact streamOk_congr (streamOk_sequencerNext hs h) (edgeNext_cnt s) (edgeNext_ovf s) (edgeNext_tx s)
      (sentInFrame_congr (edgeNext_ph s) (edgeNext_gi s) (edgeNext_bi s))
  case reset =>
    rw [step_reset hr] at hstep
    obtain rfl := Host.Outcome.next.inj hstep
    exact streamOk_resetBlock s

end Sys2Proof.Machine
end

section
/-! A run of the sequencer over one whole frame (42_framer.md rule R106, 30_encoding.md rule R59). -/

namespace Sys2Proof.Machine

/-! ### A frame, part by part: each lemma prolongs a run that has come to the part -/

section Parts
variable {l : List Instr} {s₀ s : State} (h : Runs l s₀ s)
include h

/-- IDLE takes a pending tick. -/
theorem Runs.idle (hp : s.ph = phIdle) (hq : 0 < s.tickq) : Runs (l ++ [Instr.idle]) s₀ (takeTick s) := by
  have hf : fetch s = .idle := by rw [fetch, hp]; rfl
  have hidle : Runs [fetch s] s (takeTick s) := runs_cons (hf ▸ exec_idle_of_pending hq) (runs_nil _)
  exact runs_append h (hf ▸ hidle)

/-- ADV is the pure advance, and IDLE comes next. -/
theorem Runs.adv (hp : s.ph = phAdv) (hc : CountersInRange s.cnt) : Runs (l ++ [Instr.adv]) s₀
    { s with cnt := (adv s.cnt).1, ovf := s.ovf ||| (adv s.cnt).2, ph := phIdle } := by
  have hf : fetch s = .adv := by rw [fetch, hp]; rfl
  have hadv : Runs [fetch s] s (returnToIdle (advanceCounters s)) := runs_cons (by rw [hf]; rfl) (runs_nil _)
  rw [← returnToIdle_advanceCounters hc]
  exact runs_append h (hf ▸ hadv)

variable (ha : accepts s = true)
include ha

/-- STX goes to the first group. -/
theorem Runs.stx (hp : s.ph = phStx) : ∃ w, Runs (l ++ [Instr.stx]) s₀
    { s with tx := s.tx ++ [Config.stxByte], wire := w, ph := phLf } :=
  ⟨_, acceptPhase_stx hp ▸ h.accept ha hp⟩

/-- ETX goes to ADV. -/
theorem Runs.etx (hp : s.ph = phEtx) : ∃ w, Runs (l ++ [Instr.etx]) s₀
    { s with tx := s.tx ++ [Config.etxByte], wire := w, ph := phAdv } :=
  ⟨_, acceptPhase_etx hp ▸ h.accept ha hp⟩

/-- A group that is not the last one: its bytes are sent, and the next group comes next. -/
theorem Runs.groupThenNext {g : Grp} (hg : s.gi = BitVec.ofNat 3 g.val) (hb : s.bi = 0) (hp : s.ph = phLf)
    (hlast : g ≠ 4) : ∃ w a, Runs (l ++ groupOps g) s₀
    { s with
      tx := s.tx ++ groupBytes s.cnt g, wire := w, acc := a, ph := phLf, gi := BitVec.ofNat 3 (g.val + 1) } := by
  have hgi : s.gi.toNat = g.val := by
    rw [hg, BitVec.toNat_ofNat, Nat.mod_eq_of_lt (Nat.lt_trans g.isLt (by decide))]
  have hnot : s.gi ≠ 4 := mt (gi_eq_four_iff hgi).1 hlast
  have hnext : s.gi + 1 = BitVec.ofNat 3 (g.val + 1) := by rw [hg, BitVec.ofNat_add]; rfl
  obtain ⟨w, hrun⟩ := h.group ha hgi hb hp
  rw [if_neg hnot, if_neg hnot, hnext] at hrun
  exact ⟨w, _, hrun⟩

/-- All five groups: ACC is left with the sum of the last one's checksummable substring, and ETX comes next. -/
theorem Runs.groups (hg : s.gi = 0) (hb : s.bi = 0) (hp : s.ph = phLf) : ∃ w,
    Runs (l ++ groupOps 0 ++ groupOps 1 ++ groupOps 2 ++ groupOps 3 ++ groupOps 4) s₀
    { s with
      tx := s.tx ++ groupBytes s.cnt 0 ++ groupBytes s.cnt 1 ++ groupBytes s.cnt 2 ++ groupBytes s.cnt 3
        ++ groupBytes s.cnt 4
      wire := w
      acc := BitVec.ofNat 16 (byteSum ((Config.desc 4).name ++ [Config.spByte]
        ++ digits s.cnt.papp.toNat (Config.desc 4).width))
      ph := phEtx
      gi := 0 } := by
  obtain ⟨_, _, h0⟩ := h.groupThenNext ha (g := 0) hg hb hp (by decide)
  obtain ⟨_, _, h1⟩ := h0.groupThenNext ha (g := 1) rfl hb rfl (by decide)
  obtain ⟨_, _, h2⟩ := h1.groupThenNext ha (g := 2) rfl hb rfl (by decide)
  obtain ⟨_, _, h3⟩ := h2.groupThenNext ha (g := 3) rfl hb rfl (by decide)
  obtain ⟨w, h4⟩ := h3.group ha (g := 4) rfl hb rfl
  exact ⟨w, h4⟩

end Parts

/-- A whole frame from (IDLE, 0, 0): it is sent, the counters advance, and the sequencer is back at (IDLE, 0, 0). -/
theorem runs_frame {s : State} (hp : s.ph = phIdle) (hg : s.gi = 0) (hb : s.bi = 0) (hq : 0 < s.tickq)
    (hc : CountersInRange s.cnt) (ha : accepts s = true) : ∃ w,
    Runs frameOps s
    { s with
      tx := s.tx ++ frameBytes s.cnt
      wire := w
      cnt := (adv s.cnt).1
      ovf := s.ovf ||| (adv s.cnt).2
      tickq := s.tickq - 1
      acc := BitVec.ofNat 16 (byteSum ((Config.desc 4).name ++ [Config.spByte]
        ++ digits s.cnt.papp.toNat (Config.desc 4).width)) } := by
  obtain ⟨_, hstx⟩ := ((runs_nil s).idle hp hq).stx ha rfl
  obtain ⟨_, hgroups⟩ := hstx.groups ha rfl rfl rfl
  obtain ⟨w, hetx⟩ := hgroups.etx ha rfl
  have hadv := hetx.adv rfl hc
  refine ⟨w, ?_⟩
  rw [hp, hg, hb]
  simp only [frameBytes, ← List.append_assoc]
  exact hadv

/-- Settles O49: `FRAME` has 85 operations, and the sequencer runs it. -/
theorem sequencerEmitsAWholeFrame : Obligations.SequencerEmitsAWholeFrame := by
  intro s hp hg hb hq hc hready hrst
  obtain ⟨hname, h1, h9⟩ := desc_wf 4
  obtain ⟨_, hrun⟩ := runs_frame hp hg hb hq hc (accepts_iff.2 ⟨hready, hrst⟩)
  exact ⟨_, _, _, frame_eq hc, csub_of_lt hname h1 h9 (hc 4), hrun, rfl⟩

end Sys2Proof.Machine
end

section
/-! The edge's priorities and the two waits (60_exceptions.md rules R120, R126, R134 and R136, 70_reset_and_hazards.md
rules R141, R142 and R147). -/

namespace Sys2Proof.Machine

/-- Settles O2: RESET is the first thing a clock edge looks at, and what it gives does not depend on the rest. -/
theorem resetEdgeWinsOverEverything : Obligations.ResetEdgeWinsOverEverything := fun _ hrst => step_reset hrst

/-- A step at a legal phase gives a next state, with RESET or without (60_exceptions.md rule R120). -/
theorem exists_step_eq_next {s : State} (hp : s.ph.toNat ≤ 10) : ∃ t, step s = .next t := by
  rcases hr : s.input.rst with _ | _
  · exact ⟨_, step_legal hr hp⟩
  · exact ⟨_, step_reset hr⟩

/-- A step that gives a next state does not fault. -/
theorem safe_of_step_eq_next {s t : State} (h : step s = .next t) : Safe s := by
  intro e hfault
  rw [h] at hfault
  cases hfault

/-- Settles O46: a legal position has a legal phase. -/
theorem noStepFaultsAtALegalPosition : Obligations.NoStepFaultsAtALegalPosition := by
  intro s hpos
  obtain ⟨t, hstep⟩ := exists_step_eq_next hpos.ph_le
  exact ⟨safe_of_step_eq_next hstep, t, hstep⟩

/-! ### A TICK at the edge of the IDLE step -/

/-- Settles O35: IDLE has made room in the queue when the TICK comes. -/
theorem tickAtTheIdleEdgeIsKept : Obligations.TickAtTheIdleEdgeIsKept := by
  intro s hp hfull hrst htick
  have hmax : 0 < Config.tickqMax := Nat.succ_pos _
  have htake : sequencerNext s = takeTick s := by rw [sequencerNext_idle hp, if_pos (by omega)]
  have hroom : (takeTick s).tickq < Config.tickqMax := by rw [takeTick_tickq]; omega
  refine ⟨_, step_legal hrst (by rw [hp]; decide), ?ph, ?tickq, ?tlost⟩
  case ph => rw [edgeNext_ph, htake]; rfl
  case tickq =>
    rw [edgeNext_tickq, htake, if_pos ⟨htick, hroom⟩, takeTick_tickq]
    omega
  case tlost => rw [edgeNext_tlost, htake, if_neg fun hlost => hlost.2 hroom, takeTick_tlost]

/-! ### The two waits -/

/-- Where the sequencer waits and no TICK comes, a step is the passing of the edge. -/
theorem step_of_wait {s : State} (hrst : s.input.rst = false) (htick : s.input.tick = false)
    (hp : s.ph.toNat ≤ 10) (hwait : sequencerNext s = s) : step s = .next (passEdge s) := by
  rw [step_legal hrst hp, edgeNext, htick, hwait]
  rfl

/-- A byte on offer that is not accepted makes the sequencer wait. -/
theorem sequencerNext_of_not_accepts {s : State} (hv : txValid s = true) (ha : accepts s = false) :
    sequencerNext s = s := by
  obtain ⟨h1, h9⟩ := txValid_eq_true_iff.1 hv
  rw [sequencerNext_emitting h1 h9, ha]
  rfl

/-- With no tick pending IDLE waits. -/
theorem sequencerNext_idle_of_empty {s : State} (hp : s.ph = 0) (hq : s.tickq = 0) : sequencerNext s = s := by
  rw [sequencerNext_idle hp, if_neg (by omega)]

/-- What `tx_data` shows of a byte on offer does not depend on the edge. -/
theorem txData_passEdge {s : State} (hv : txValid s = true) : txData (passEdge s) = txData s := by
  have hkept : offered (passEdge s) = some (txData s) := offered_eq_txData hv
  rw [txData, hkept]

/-- Settles O32: in both waits the sequencer keeps the state, so that the step is the passing of the edge. -/
theorem bothWaitsKeepTheState : Obligations.BothWaitsKeepTheState := by
  intro s hrst htick
  refine ⟨fun hv hready => ?offering, fun hp hq => ?idle⟩
  case offering =>
    have hp := Nat.le_succ_of_le (txValid_eq_true_iff.1 hv).2
    have hwait := sequencerNext_of_not_accepts hv (not_accepts_iff.2 (.inl hready))
    exact ⟨passEdge s, step_of_wait hrst htick hp hwait, rfl, hv, txData_passEdge hv⟩
  case idle =>
    have hwait := sequencerNext_idle_of_empty hp hq
    exact ⟨passEdge s, step_of_wait hrst htick (by rw [hp]; decide) hwait, rfl, txValid_eq_false (.inl hp)⟩

end Sys2Proof.Machine
end

section
/-! What the transport delivers (60_exceptions.md rule R123): the wire against TX, and noninterference. -/

namespace Sys2Proof.Machine

/-! ### The wire carries a subsequence of TX -/

/-- The sequencer appends to the wire only the byte it appends to TX. -/
theorem wireOk_sequencerNext {s : State} (h : WireOk s) (hp : s.ph.toNat ≤ 10) : WireOk (sequencerNext s) := by
  obtain ⟨htx, hwire⟩ := sequencerNext_stream hp
  rw [WireOk, htx, hwire]
  rcases hsent : txValid s && accepts s with _ | _
  · exact h
  · rcases hdel : s.input.delivers with _ | _
    · exact List.sublist_append_of_sublist_left h
    · exact h.append (List.Sublist.refl _)

/-- Settles O41: RESET touches neither history, and the rest of an edge adds nothing to what the sequencer sends. -/
theorem wireStaysASubsequenceOfTx : Obligations.WireStaysASubsequenceOfTx := by
  intro s t h hstep
  rcases step_cases hstep with ⟨-, rfl⟩ | ⟨-, hp, rfl⟩
  · exact h
  · rw [WireOk, edgeNext_wire, edgeNext_tx]
    exact wireOk_sequencerNext h hp

/-! ### Noninterference of what is delivered -/

/-- An edge but for the transport's choice whether to deliver. -/
def EdgeInput.undelivered (e : EdgeInput) : EdgeInput := { e with delivers := false }

/-- Agreement but for deliveries, as an update of the wire and the coming edges. -/
theorem agreeButDelivery_iff {s t : State} : AgreeButDelivery s t ↔ ∃ w is, t = { s with wire := w, inputs := is }
    ∧ is.map EdgeInput.undelivered = s.inputs.map EdgeInput.undelivered := by
  constructor
  · exact fun ⟨ht, hinputs⟩ => ⟨_, _, ht, hinputs⟩
  · rintro ⟨w, is, rfl, hinputs⟩
    exact ⟨rfl, hinputs⟩

/-- Two states that agree but for deliveries see the same pins at the next edge. -/
theorem AgreeButDelivery.input {s s' : State} (h : AgreeButDelivery s s') :
    s'.input.rst = s.input.rst ∧ s'.input.tick = s.input.tick ∧ s'.input.txReady = s.input.txReady := by
  obtain ⟨_, _, rfl, hinputs⟩ := agreeButDelivery_iff.1 h
  have hnext := congrArg (fun l => l.headD EdgeInput.quiet.undelivered) hinputs
  rw [List.headD_map, List.headD_map] at hnext
  obtain ⟨hrst, htick, hready, -⟩ := EdgeInput.mk.inj hnext
  exact ⟨hrst, htick, hready⟩

theorem agreeButDelivery_resetBlock {s s' : State} (h : AgreeButDelivery s s') :
    AgreeButDelivery (resetBlock s) (resetBlock s') := by
  obtain ⟨w, is, rfl, hinputs⟩ := agreeButDelivery_iff.1 h
  exact ⟨rfl, hinputs⟩

/-- Of the environment the sequencer reads only whether the byte on offer is accepted, and of the wire nothing. -/
theorem agreeButDelivery_sequencerNext {s s' : State} (h : AgreeButDelivery s s') (hp : s.ph.toNat ≤ 10) :
    AgreeButDelivery (sequencerNext s) (sequencerNext s') := by
  obtain ⟨hrst, -, hready⟩ := h.input
  have haccepts : accepts s' = accepts s := by rw [accepts, accepts, hrst, hready]
  obtain ⟨hsame, -, htlost⟩ := sequencerNext_keeps hp
  obtain ⟨w, is, rfl, hinputs⟩ := agreeButDelivery_iff.1 h
  obtain ⟨o, w', hnext, hovf⟩ := sequencerNext_outside hp s.ovf s.tlost w is haccepts
  refine agreeButDelivery_iff.2 ⟨w', is, hnext.trans ?_, hsame ▸ hinputs⟩
  rw [hovf rfl, ← htlost]

theorem agreeButDelivery_queueTick {s s' : State} (h : AgreeButDelivery s s') :
    AgreeButDelivery (queueTick s) (queueTick s') := by
  obtain ⟨w, is, rfl, hinputs⟩ := agreeButDelivery_iff.1 h
  rw [queueTick_eq, queueTick_eq]
  exact ⟨rfl, hinputs⟩

theorem agreeButDelivery_passEdge {s s' : State} (h : AgreeButDelivery s s') :
    AgreeButDelivery (passEdge s) (passEdge s') := by
  obtain ⟨w, is, rfl, hinputs⟩ := agreeButDelivery_iff.1 h
  refine agreeButDelivery_iff.2 ⟨w, is.tail, rfl, ?_⟩
  rw [passEdge_inputs, List.map_tail, List.map_tail, hinputs]

theorem agreeButDelivery_edgeNext {s s' : State} (h : AgreeButDelivery s s') (hp : s.ph.toNat ≤ 10) :
    AgreeButDelivery (edgeNext s) (edgeNext s') := by
  have hseq := agreeButDelivery_sequencerNext h hp
  obtain ⟨-, htick, -⟩ := h.input
  refine agreeButDelivery_passEdge ?_
  rw [htick]
  split
  · exact agreeButDelivery_queueTick hseq
  · exact hseq

/-- Settles O40: both states see the same pins, and every part of an edge keeps the agreement. -/
theorem deliveryIsInvisibleToTheBlock : Obligations.DeliveryIsInvisibleToTheBlock := by
  intro s s' t h hstep
  obtain ⟨hrst, -, -⟩ := h.input
  have hph : s'.ph = s.ph := by rw [h.1]
  rcases step_cases hstep with ⟨hr, rfl⟩ | ⟨hr, hp, rfl⟩
  · exact ⟨_, step_reset (hrst.trans hr), agreeButDelivery_passEdge (agreeButDelivery_resetBlock h)⟩
  · exact ⟨_, step_legal (hrst.trans hr) (hph ▸ hp), agreeButDelivery_edgeNext h hp⟩

end Sys2Proof.Machine
end

section
/-! The frame of the counters after RESET (70_reset_and_hazards.md rule R144). -/

namespace Sys2Proof.Machine

/-- The Data Groups of the initial counters, as 95_test_vectors.md V8 and V9 list them. -/
def initialGroupBytes : Grp → List Byte
  | 0 => [0x0A, 0x42, 0x41, 0x53, 0x45, 0x20, 0x30, 0x30, 0x30, 0x30, 0x30, 0x30, 0x30, 0x30, 0x30, 0x20, 0x4B, 0x0D]
  | 1 => [0x0A, 0x48, 0x43, 0x48, 0x43, 0x20, 0x30, 0x30, 0x30, 0x30, 0x30, 0x31, 0x31, 0x31, 0x31, 0x20, 0x4A, 0x0D]
  | 2 => [0x0A, 0x48, 0x43, 0x48, 0x50, 0x20, 0x30, 0x30, 0x30, 0x30, 0x30, 0x32, 0x32, 0x32, 0x32, 0x20, 0x5B, 0x0D]
  | 3 => [0x0A, 0x49, 0x49, 0x4E, 0x53, 0x54, 0x20, 0x31, 0x32, 0x30, 0x20, 0x5A, 0x0D]
  | 4 => [0x0A, 0x50, 0x41, 0x50, 0x50, 0x20, 0x31, 0x36, 0x32, 0x35, 0x34, 0x20, 0x33, 0x0D]

/-- V9's groups are the model's: names, padded digits and checksums agree for the five initial values. -/
theorem groupBytes_init : ∀ g : Grp, groupBytes Config.init g = initialGroupBytes g := by decide

/-- Settles O14: the initial counters are in range, so their frame is STX, the five groups of V9 and ETX. -/
theorem frameOfInitialCounters : Obligations.FrameOfInitialCounters := by
  rw [Obligations.FrameOfInitialCounters, frame_eq init_countersInRange, frameBytes]
  simp only [groupBytes_init]
  rfl

end Sys2Proof.Machine
end

section
/-! The operations where no run comes: indices the tables do not have, counters above their capacity (log entries 3,
7 and 13). -/

namespace Sys2Proof.Machine

/-- Settles O19: the accept of NAME is one update at any indices, with the table's length and byte where it has them. -/
theorem nameCompletesAtAnyIndices : Obligations.NameCompletesAtAnyIndices := by
  intro s hready hrst
  refine ⟨nameByte s.gi s.bi, nlenOf s.gi, fun g hg => ⟨nlenOf_eq hg, fun _ hb => nameByte_eq hg hb⟩, rfl, rfl, ?_⟩
  rw [exec_name_of_ready hready hrst, acceptName, nextInString_accAdd_sendByte]
  rfl

/-- Settles O22: the accept of DIG is one update at any indices, with the table's width where it has one, and in it
the digit's formula for any value of the counter. -/
theorem digCompletesAtAnyIndices : Obligations.DigCompletesAtAnyIndices := by
  intro s hready hrst
  refine ⟨digByte s.cnt s.gi s.bi, widthOf s.gi, fun g hg => ⟨widthOf_eq hg, fun hbi => ?digit⟩, rfl, rfl, ?update⟩
  case digit =>
    rw [widthOf_eq hg] at hbi ⊢
    exact digByte_eq hg hbi
  case update =>
    rw [exec_dig_of_ready hready hrst, acceptDig, nextInString_accAdd_sendByte]
    rfl

/-- Settles O25: the accept of CR sends and moves to the next group, whatever GI is. -/
theorem crCompletesAtAnyIndex : Obligations.CrCompletesAtAnyIndex := by
  intro s hready hrst
  rw [exec_cr_of_ready hready hrst, acceptCr, nextGroup_eq]
  rfl

/-- A counter at its capacity becomes 0. -/
theorem bump_of_capacity {c : CntWord} {w : Nat} (h : c.toNat = 10 ^ w - 1) : bump c w = 0 :=
  if_pos (atCapacity_iff.2 h)

/-- Every other counter, one above its capacity too, grows by 1 in its 32 bits (log entry 7). -/
theorem bump_of_ne {c : CntWord} {w : Nat} (h : c.toNat ≠ 10 ^ w - 1) : bump c w = c + 1 :=
  if_neg (mt atCapacity_iff.1 h)

/-- After ADV a flag is set when it was set before or its counter was at its capacity. -/
theorem advanceCounters_ovf_getLsbD (s : State) (g : Grp) :
    (advanceCounters s).ovf.getLsbD g.val
      = (s.ovf.getLsbD g.val || decide ((s.cnt.get g).toNat = 10 ^ (Config.desc g).width - 1)) := by
  rw [advanceCounters_ovf, wraps_eq_adv, BitVec.getLsbD_or, adv_ovf_getLsbD]

/-- Settles O27: ADV always completes, and each counter and its flag are read in the two cases of the pseudocode. -/
theorem advCompletesAtAnyCounters : Obligations.AdvCompletesAtAnyCounters := by
  intro s
  refine ⟨returnToIdle (advanceCounters s), rfl, rfl, fun g => ?_⟩
  rw [returnToIdle_cnt, advanceCounters_cnt, bumpAll_get, returnToIdle_ovf, advanceCounters_ovf_getLsbD]
  refine ⟨fun hcap => ⟨bump_of_capacity hcap, ?flagSet⟩, fun hne => ⟨bump_of_ne hne, ?flagKept⟩⟩
  case flagSet => rw [decide_eq_true hcap, Bool.or_true]
  case flagKept => rw [decide_eq_false hne, Bool.or_false]

end Sys2Proof.Machine
end
